-- ==== Sys2Proof/Word.lean ====
section
/-! DEFINITION. The words of the block: bytes (samples, LUT entries), 16-bit dimensions, 32-bit register words,
and the 32-bit pattern of a binary32 number (00_scope.md R6, R14). -/

namespace Sys2Proof

/-- One sample or one LUT entry, `SAMPLE_W` = `LUT_W` = 8 (00_scope.md R5, R6). -/
abbrev Byte := BitVec 8

/-- A frame dimension, `DIM_W` = 16 (00_scope.md R6). -/
abbrev Dim := BitVec 16

/-- A register-port word, a frame-memory address or a count, `REG_W` = `ADDR_W` = `CNT_W` = 32 (00_scope.md R6). -/
abbrev Word := BitVec 32

/-- A value of `NUM` as this hardware instantiates it: the interchange pattern of a binary32 number
(00_scope.md R9, R14). -/
abbrev F32 := BitVec 32

end Sys2Proof
end

