-- ==== Sys2Proof/Config.lean ====
section
/-! DEFINITION. The block's constants, the shape of the number format `NUM`, and the free values: what the spec
leaves open and nothing here decides. -/

namespace Sys2Proof

namespace Config

/-- `NCH`, channels per pixel (00_scope.md R5). -/
abbrev nch : Nat := 3

/-- `NBINS`, histogram bins, CDF entries and LUT entries per channel (00_scope.md R5). -/
abbrev nbins : Nat := 256

/-- `CUR_INIT`, the cursor's first value in each channel (00_scope.md R5). -/
abbrev curInit : Nat := 1

/-- `CUR_MAX`, the cursor advances only below it (00_scope.md R5). -/
abbrev curMax : Nat := 255

/-- `EPS` in binary32 (00_scope.md R6, R13). -/
abbrev epsBits : Word := 0x358637BD

/-- Frame memory has `2 ^ ADDR_W` bytes (20_memory.md R60). -/
abbrev memSize : Nat := 2 ^ 32

/-- The register window's size in bytes (10_state.md R24). -/
abbrev windowSize : Nat := 0x8000

/-- FREE VALUE (assumption 4). The word the `n`-th draw gives: what a read of a table entry whose valid bit is 0
returns (10_state.md R41, 93 U2). -/
opaque freeWord : Nat → Word

/-- FREE VALUE (assumption 9). The `n`-th free choice between two values: whether a destination byte of an
abandoned `XFORM` has been written (70_reset_and_hazards.md R181, 93 U6). -/
opaque freeBit : Nat → Bool

/-- FREE VALUE (assumption 8). The `n`-th free index: how far a running command has come when `STATUS` is read
(10_state.md R40 (b), 93 U10). -/
opaque freeIndex : Nat → Nat

/-- FREE VALUE (assumption 11). Sign and payload of a NaN result, from the two operands; no rule ever produces or
consumes a NaN (00_scope.md R15). -/
opaque freeNaN : F32 → F32 → Word

end Config

/-- The operations of the number format, exactly those the rules use (00_scope.md R8). It is a record so that laws
can be stated for every format (R17, 92 D3). -/
structure NumFormat (V : Type) where
  /-- `NUM.ofNat`: conversion of an unsigned integer below `2 ^ 32`. -/
  ofNat : Nat → V
  /-- `NUM.div`: quotient. -/
  div : V → V → V
  /-- `NUM.add`: sum. -/
  add : V → V → V
  /-- `NUM.sub`: difference. -/
  sub : V → V → V
  /-- `NUM.lt`: strict less-than. -/
  lt : V → V → Bool
  /-- `NUM.EPS`: the tolerance of the matching comparison. -/
  eps : V
  /-- `NUM.toBits`: the pattern a register read returns. -/
  toBits : V → Word

end Sys2Proof
end

