-- ==== Sys2Proof/Machine/Binary32.lean ====
section
/-! DEFINITION. The number format of this hardware: IEEE 754 binary32, round to nearest, ties to even
(00_scope.md R9 to R14). PRESUMED (assumption 10): the spec takes the format's definition from the standard (93 G1
to G4).

Every finite binary32 number is an integer multiple of 2^-149, so a value is handled as that integer ("units"): sums
are exact in integers, a quotient is a ratio of two naturals, and there is one rounding function. -/

namespace Sys2Proof.Machine

/-- The sign bit, bit 31 (00_scope.md R14). -/
def f32Neg (a : F32) : Bool := decide (2 ^ 31 ≤ a.toNat)

/-- The biased exponent, bits 30:23 (00_scope.md R14). -/
def f32Exp (a : F32) : Nat := a.toNat / 2 ^ 23 % 2 ^ 8

/-- The fraction, bits 22:0 (00_scope.md R14). -/
def f32Frac (a : F32) : Nat := a.toNat % 2 ^ 23

/-- Not a number: exponent all ones, fraction not 0. -/
def f32IsNaN (a : F32) : Bool := f32Exp a == 255 && f32Frac a != 0

/-- Infinite: exponent all ones, fraction 0. -/
def f32IsInf (a : F32) : Bool := f32Exp a == 255 && f32Frac a == 0

/-- The magnitude in units of 2^-149: the fraction alone for exponent 0, else with the leading 1, scaled. An infinity
gets a value above every finite one. -/
def f32Mag (a : F32) : Nat :=
  if f32Exp a = 0 then f32Frac a else (2 ^ 23 + f32Frac a) * 2 ^ (f32Exp a - 1)

/-- The value in units of 2^-149, with its sign. -/
def f32Units (a : F32) : Int := if f32Neg a then -(f32Mag a : Int) else (f32Mag a : Int)

/-- How many low bits of a magnitude of `q` whole units do not fit in 24 significant bits. -/
def f32Shift (q : Nat) : Nat := if q < 2 ^ 24 then 0 else q.log2 - 23

/-- The quotient `n / u` rounded to the nearest integer, ties to even. -/
def roundHalfEven (n u : Nat) : Nat :=
  if u < 2 * (n % u) ∨ (2 * (n % u) = u ∧ n / u % 2 = 1) then n / u + 1 else n / u

/-- The magnitude pattern (bits 30:0) of the non-negative rational `n / d` units, rounded to nearest, ties to even
(00_scope.md R9, R11). A significand that rounds up to `2 ^ 24` carries into the exponent field, as the encoding wants;
`min` turns a value past the largest finite number into infinity. -/
def f32Round (n d : Nat) : Nat :=
  min (roundHalfEven n (d * 2 ^ f32Shift (n / d)) + f32Shift (n / d) * 2 ^ 23) 0x7F800000

/-- A sign and a magnitude pattern as one word (00_scope.md R14). -/
def f32Pack (neg : Bool) (mag : Nat) : F32 := BitVec.ofNat 32 ((if neg then 2 ^ 31 else 0) + mag)

/-- A quiet NaN; its sign and payload are free (assumption 11). -/
def f32NaN (a b : F32) : F32 := 0x7FC00000 ||| Config.freeNaN a b

/-- The same number with the other sign. -/
def f32Negate (a : F32) : F32 := a ^^^ 0x80000000

/-- `NUM.ofNat` (00_scope.md R10). -/
def f32OfNat (n : Nat) : F32 := f32Pack false (f32Round (n * 2 ^ 149) 1)

/-- The sum of two numbers neither of which is a NaN or an infinity: the exact integer sum of the units, rounded once;
an exact zero is +0 unless both operands are negative zeros. -/
def f32AddFinite (a b : F32) : F32 :=
  if f32Units a + f32Units b = 0 then f32Pack (f32Neg a && f32Neg b) 0
  else f32Pack (decide (f32Units a + f32Units b < 0)) (f32Round (f32Units a + f32Units b).natAbs 1)

/-- `NUM.add` (00_scope.md R11). -/
def f32Add (a b : F32) : F32 :=
  if f32IsNaN a || f32IsNaN b then f32NaN a b
  else if f32IsInf a then (if f32IsInf b && (f32Neg a != f32Neg b) then f32NaN a b else a)
  else if f32IsInf b then b
  else f32AddFinite a b

/-- `NUM.sub` (00_scope.md R11). -/
def f32Sub (a b : F32) : F32 :=
  if f32IsNaN a || f32IsNaN b then f32NaN a b else f32Add a (f32Negate b)

/-- `NUM.div` (00_scope.md R11): the exact ratio of the magnitudes, rounded once. -/
def f32Div (a b : F32) : F32 :=
  if f32IsNaN a || f32IsNaN b then f32NaN a b
  else if f32IsInf a then (if f32IsInf b then f32NaN a b else f32Pack (f32Neg a != f32Neg b) 0x7F800000)
  else if f32IsInf b then f32Pack (f32Neg a != f32Neg b) 0
  else if f32Mag b = 0 then
    (if f32Mag a = 0 then f32NaN a b else f32Pack (f32Neg a != f32Neg b) 0x7F800000)
  else f32Pack (f32Neg a != f32Neg b) (f32Round (f32Mag a * 2 ^ 149) (f32Mag b))

/-- `NUM.lt` (00_scope.md R12): quiet, false on a NaN, the two zeros equal. -/
def f32Lt (a b : F32) : Bool :=
  !f32IsNaN a && !f32IsNaN b && decide (f32Units a < f32Units b)

/-- `NUM` of this hardware (00_scope.md R8, R9, R13, R14). -/
def binary32 : NumFormat F32 where
  ofNat := f32OfNat
  div := f32Div
  add := f32Add
  sub := f32Sub
  lt := f32Lt
  eps := Config.epsBits
  toBits := id

end Sys2Proof.Machine
end

