-- ==== Sys2Proof/Syntax.lean ====
section
/-! DEFINITION. The commands (one constructor per row of spec/opcode_table.json), the fields of a command word, and
what the host can send: register-port transactions, frame-memory accesses, reset. -/

namespace Sys2Proof

/-- The five commands (30_encoding.md R85). No command carries an operand (R87). -/
inductive Instr where
  /-- `HIST`, the histogram estimator (40_histogram.md R100). -/
  | hist
  /-- `CDF`, the integrator (41_cdf_reference.md R110). -/
  | cdf
  /-- `SETREF`, the Reference capture (41_cdf_reference.md R113). -/
  | setref
  /-- `LUTGEN`, the LUT mapper (42_lut.md R120). -/
  | lutgen
  /-- `XFORM`, the frame transformer (43_transform.md R130). -/
  | xform
  deriving DecidableEq, Repr

/-- The one command format `CMD32` by its fields (30_encoding.md R86). -/
structure CommandWord where
  /-- Bits 31:8, reserved, must be 0. -/
  rsv : BitVec 24
  /-- Bits 7:0, the opcode. -/
  op : BitVec 8
  deriving DecidableEq, Repr

/-- How wide a register-port access is; only `word` is inside the protocol (10_state.md R42). -/
inductive AccessSize where
  | byte
  | half
  | word
  deriving DecidableEq, Repr

/-- A register-port transaction at a byte offset of the window (10_state.md R40). -/
inductive PortOp where
  /-- `RegRead(off)`. -/
  | read (size : AccessSize) (off : Nat)
  /-- `RegWrite(off, v)`. -/
  | write (size : AccessSize) (off : Nat) (v : Word)
  deriving DecidableEq, Repr

/-- What reaches the block from outside, in the order in which it arrives (45_host_sequences.md R142,
70_reset_and_hazards.md R182). -/
inductive Input where
  /-- A register-port transaction. -/
  | port (op : PortOp)
  /-- The host places bytes in frame memory ("Provide a frame"). -/
  | memWrite (addr : Word) (bytes : List Byte)
  /-- The host reads `n` bytes of frame memory ("Collect a frame"). -/
  | memRead (addr : Word) (n : Nat)
  /-- `rst` is asserted, and released before anything else arrives (assumption 23). -/
  | reset
  /-- Nothing arrives, and the block gets on with its command. -/
  | tick
  deriving DecidableEq, Repr

end Sys2Proof
end

