-- ==== Sys2Proof/WellFormed.lean ====
section
/-! DEFINITION. Which command words, register-port transactions and inputs are inside the protocol. -/

namespace Sys2Proof

/-- A command word is well formed when its reserved field is 0 and its opcode is one of the five
(30_encoding.md R86, R88). -/
def CommandWord.wellFormed (c : CommandWord) : Bool :=
  c.rsv == 0 && (1 ≤ c.op.toNat && c.op.toNat ≤ 5)

/-- An aligned 32-bit access inside the window (10_state.md R40, R42). -/
def portAddrWellFormed (size : AccessSize) (off : Nat) : Bool :=
  size == .word && off % 4 == 0 && off < Config.windowSize

/-- A transaction inside the port's protocol (10_state.md R42). -/
def PortOp.wellFormed : PortOp → Bool
  | .read size off => portAddrWellFormed size off
  | .write size off _ => portAddrWellFormed size off

/-- A command carries no operand and no immediate (30_encoding.md R87), so every command is well formed. -/
def Instr.wellFormed : Instr → Bool
  | .hist | .cdf | .setref | .lutgen | .xform => true

end Sys2Proof
end

