-- ==== Sys2Proof/Decode.lean ====
section
/-! DEFINITION. Decoding a command word, total on every 32-bit word (30_encoding.md R86 to R89), and the encoder. -/

namespace Sys2Proof

/-- The fields of a command word (30_encoding.md R86). -/
def splitWord (w : Word) : CommandWord := ⟨w.extractLsb' 8 24, w.extractLsb' 0 8⟩

/-- A command word from its fields (30_encoding.md R86). -/
def CommandWord.toWord (c : CommandWord) : Word := c.rsv ++ c.op

/-- The opcode field of a command (30_encoding.md R88). -/
def Instr.opcode : Instr → BitVec 8
  | .hist => 1
  | .cdf => 2
  | .setref => 3
  | .lutgen => 4
  | .xform => 5

/-- The fields of a command's word (30_encoding.md R86, R88). -/
def Instr.commandWord (i : Instr) : CommandWord := ⟨0, i.opcode⟩

/-- The command an opcode names (30_encoding.md R88). -/
def decodeOpcode (op : BitVec 8) : Option Instr :=
  match op.toNat with
  | 1 => some .hist
  | 2 => some .cdf
  | 3 => some .setref
  | 4 => some .lutgen
  | 5 => some .xform
  | _ => none

/-- Decoding by fields: a non-zero reserved field is illegal whatever the opcode (30_encoding.md R89). -/
def decodeFields (c : CommandWord) : Option Instr :=
  if c.rsv = 0 then decodeOpcode c.op else none

/-- The decoder (30_encoding.md R88): `none` is "illegal" (R89). -/
def decode (w : Word) : Option Instr := decodeFields (splitWord w)

/-- The command word of a command (30_encoding.md R88). -/
def encode (i : Instr) : Word := i.commandWord.toWord

/-- The command word whose bits are `w`, numbered as the opcode table numbers them; bits from `nbits` up are 0
(30_encoding.md R86: one 32-bit word). -/
def tableWord (nbits w : Nat) : Word := BitVec.ofNat 32 (w % 2 ^ nbits)

/-- The instruction the decoder reads from a table word. -/
def decodeTableWord (nbits w : Nat) : Option Instr := decode (tableWord nbits w)

theorem decode_hist : decode 0x00000001 = some .hist := by decide
theorem decode_cdf : decode 0x00000002 = some .cdf := by decide
theorem decode_setref : decode 0x00000003 = some .setref := by decide
theorem decode_lutgen : decode 0x00000004 = some .lutgen := by decide
theorem decode_xform : decode 0x00000005 = some .xform := by decide

end Sys2Proof
end

