-- ==== Sys2Proof/Machine/Memory.lean ====
section
/-! DEFINITION. Frame memory: 2^32 bytes, byte-addressed (20_memory.md R60), as the list of the bytes that differ
from what an unlisted address reads as, sorted by address. -/

namespace Sys2Proof.Machine

/-- Frame memory `M` (20_memory.md R60). -/
abbrev Memory := List Host.Cell

/-- What an address that is not listed reads as. DESIGN CHOICE, unsafe (assumption 5): the spec leaves the initial
contents to the host (93 U11). -/
def memUnlisted : Byte := 0

/-- `MemRead(a, 1)` (20_memory.md R60). -/
def Memory.read : Memory → Nat → Byte
  | [], _ => memUnlisted
  | (b, v) :: m, a => if a = b then v else Memory.read m a

/-- `MemWrite(a, 1, v)` (20_memory.md R60). It keeps the list sorted, and writing the unlisted value removes the
entry. -/
def Memory.write : Memory → Nat → Byte → Memory
  | [], a, v => if v = memUnlisted then [] else [(a, v)]
  | (b, w) :: m, a, v =>
    if a < b then (if v = memUnlisted then (b, w) :: m else (a, v) :: (b, w) :: m)
    else if a = b then (if v = memUnlisted then m else (a, v) :: m)
    else (b, w) :: Memory.write m a v

/-- The canonical form from address `lo` up: addresses strictly rising, inside the 2^32 bytes, no entry equal to the
unlisted value. -/
def Memory.wfFrom : Nat → Memory → Bool
  | _, [] => true
  | lo, (a, v) :: m => lo ≤ a && a < Config.memSize && v != memUnlisted && Memory.wfFrom (a + 1) m

/-- Frame memory is in its canonical form. -/
def Memory.wf (m : Memory) : Bool := Memory.wfFrom 0 m

/-- The bytes at `a`, `a + 1`, and so on, `n` of them. -/
def Memory.readBytes (m : Memory) : Nat → Nat → List Byte
  | _, 0 => []
  | a, n + 1 => Memory.read m a :: Memory.readBytes m (a + 1) n

/-- The bytes of the list at `a`, `a + 1`, and so on. -/
def Memory.writeBytes : Memory → Nat → List Byte → Memory
  | m, _, [] => m
  | m, a, v :: vs => Memory.writeBytes (Memory.write m a v) (a + 1) vs

end Sys2Proof.Machine
end

