-- ==== Sys2Proof/Machine/Table.lean ====
section
/-! DEFINITION. The tables: three channels of 256 entries each (10_state.md R34 to R38). -/

namespace Sys2Proof.Machine

/-- One channel of a table. -/
abbrev Row (α : Type) := Vector α 256

/-- A table `T[c][i]`, `c` the channel and `i` the bin (00_scope.md section 5). -/
abbrev Table (α : Type) := Vector (Row α) 3

/-- The vector whose entry `i` is `f i`, by a list, so that it can be evaluated by structural recursion. -/
def vectorOfFn {α : Type} {n : Nat} (f : Fin n → α) : Vector α n := ⟨⟨List.ofFn f⟩, by simp⟩

/-- The row whose entry `i` is `f i`. -/
def rowOfFn {α : Type} (f : Fin 256 → α) : Row α := vectorOfFn f

/-- The table whose channel `c` is `f c`. -/
def tableOfRows {α : Type} (f : Fin 3 → Row α) : Table α := vectorOfFn f

/-- The table whose entry `T[c][i]` is `f c i`. -/
def tableOfFn {α : Type} (f : Fin 3 → Fin 256 → α) : Table α := tableOfRows fun c => rowOfFn (f c)

/-- `T[c][i]`. -/
def entry {α : Type} (t : Table α) (c : Fin 3) (i : Fin 256) : α := t[c][i]

/-- `T[c][i] <- v`. -/
def setEntry {α : Type} (t : Table α) (c : Fin 3) (i : Fin 256) (v : α) : Table α :=
  t.set c (t[c].set i v)

end Sys2Proof.Machine
end

