-- ==== Sys2Proof/Machine/State.lean ====
section
/-! DEFINITION. The machine's state, plain data, holding all that the spec gives the block, frame memory and the host's
pending moves; why a step can stop; the state after reset (10_state.md R20, R45). -/

namespace Sys2Proof.Machine

/-- What an address of frame memory that is not plain memory is (20_memory.md R60, 93 U3, U7). -/
inductive RegionKind where
  /-- Not backed by plain memory: an access has no defined result. -/
  | unbacked
  /-- The memory port never answers the block there (70_reset_and_hazards.md R190). -/
  | silent
  deriving DecidableEq, Repr

/-- A stretch of frame memory that is not plain memory: `size` bytes from `base`. -/
structure Region where
  base : Nat
  size : Nat
  kind : RegionKind
  deriving DecidableEq, Repr

/-- A stretch of frame memory a command or the host accesses: `len` bytes from `base`. -/
structure Span where
  base : Nat
  len : Nat
  deriving DecidableEq, Repr

/-- What the host gets back (45_host_sequences.md R142, last column). -/
inductive Reply where
  /-- The word a `RegRead` returns. -/
  | word (v : Word)
  /-- The bytes a frame-memory read returns. -/
  | bytes (vs : List Byte)
  /-- A write has completed. -/
  | done
  deriving DecidableEq, Repr

/-- The eight errors of a command (60_exceptions.md R150). -/
inductive ErrKind where
  /-- `E_ILLEGAL`. -/
  | illegal
  /-- `E_EMPTY`. -/
  | empty
  /-- `E_RANGE`. -/
  | range
  /-- `E_NOHIST`. -/
  | noHist
  /-- `E_NOCDF`. -/
  | noCdf
  /-- `E_NOREF`. -/
  | noRef
  /-- `E_REFLOCKED`. -/
  | refLocked
  /-- `E_OVERLAP`. -/
  | overlap
  deriving DecidableEq, Repr

/-- Why the machine stops with a fault. No command faults: the eight errors of 60_exceptions.md are next states. -/
inductive Fault where
  /-- Raised by a host access to frame memory past address 2^32 - 1, which does not exist (20_memory.md R60). Safe. -/
  | noSuchFrameAddress
  deriving DecidableEq, Repr

/-- Why the machine has no move. -/
inductive Refusal where
  /-- An instruction without a meaning; no arm of `exec` raises it. Safe. -/
  | notModelled (mnemonic : String)
  /-- Raised by `HIST` and `XFORM` (and a reset that cuts off an `XFORM`, and a host access) whose region meets an
  address that is not backed by plain memory: "a model refuses it" (20_memory.md R60, 93 U3). Safe. -/
  | unbackedFrameMemory
  /-- Raised by a register-port access that is not an aligned 32-bit word inside the window: "a model refuses them"
  (10_state.md R42, 93 U5). Safe. -/
  | portProtocol
  /-- Raised by a host access to a region of the running command: a data race without meaning (20_memory.md R72,
  93 U4). Safe. -/
  | dataRace
  deriving DecidableEq, Repr

/-- The machine's state (10_state.md R20). -/
structure State where
  /-- `SRC` (10_state.md R27). -/
  src : Word
  /-- `DST` (10_state.md R28). -/
  dst : Word
  /-- `WIDTH[15:0]` (10_state.md R29). -/
  width : Dim
  /-- `HEIGHT[15:0]` (10_state.md R30). -/
  height : Dim
  /-- `NPIX` (10_state.md R31). -/
  npix : Word
  /-- `STATUS.ERR` (10_state.md R26). -/
  err : BitVec 4
  /-- `STATUS.HVALID` (10_state.md R26). -/
  hvalid : Bool
  /-- `STATUS.CVALID` (10_state.md R26). -/
  cvalid : Bool
  /-- `STATUS.RVALID` (10_state.md R26). -/
  rvalid : Bool
  /-- `ERRLOG[8:1]`: bit `n - 1` here is bit `n` of the register (10_state.md R32). -/
  errlog : BitVec 8
  /-- Table `CNT` (10_state.md R34). -/
  cnt : Table Word
  /-- Table `H` (10_state.md R35). -/
  hist : Table F32
  /-- Table `C` (10_state.md R36). -/
  cdf : Table F32
  /-- Table `R` (10_state.md R37). -/
  ref : Table F32
  /-- Table `L` (10_state.md R38). -/
  lut : Table Byte
  /-- Frame memory `M` (20_memory.md R60). -/
  mem : Memory
  /-- The command word being executed; `none` when the block is idle. `STATUS.BUSY` is 1 exactly when there is one
  (10_state.md R25, R26). -/
  running : Option Word
  /-- Model's field (assumption 8): how far along its pseudocode `STATUS` reads have seen the running command. -/
  progress : Nat
  /-- Register-port transactions held while `BUSY` = 1, oldest first (10_state.md R40 (b)). -/
  held : List PortOp
  /-- Model's field (assumption 1): what arrives from the host and the `rst` pin, in order. -/
  inbox : List Input
  /-- Model's field (assumption 17): what the host has got back, oldest first. -/
  replies : List Reply
  /-- Model's field (assumption 6): where frame memory is not plain memory. -/
  platform : List Region
  /-- Model's field (assumption 4): how many free values have been drawn. -/
  draws : Nat
  deriving DecidableEq, Repr

/-- The identity LUT, `L[c][i] = i` (10_state.md R38). -/
def identityLut : Table Byte := tableOfFn fun _ i => BitVec.ofNat 8 i.val

/-- A table of zeros: the value this model names for `CNT`, `H`, `C` and `R` at reset, where the spec gives none.
DESIGN CHOICE (assumption 3). -/
def zeroTable : Table Word := tableOfFn fun _ _ => 0

/-- The machine right after reset (10_state.md R45, 70_reset_and_hazards.md R180). -/
def State.reset : State where
  src := 0
  dst := 0
  width := 0
  height := 0
  npix := 0
  err := 0
  hvalid := false
  cvalid := false
  rvalid := false
  errlog := 0
  cnt := zeroTable
  hist := zeroTable
  cdf := zeroTable
  ref := zeroTable
  lut := identityLut
  mem := []
  running := none
  progress := 0
  held := []
  inbox := []
  replies := []
  platform := []
  draws := 0

end Sys2Proof.Machine
end

