-- ==== Sys2Proof/Machine/Flags.lean ====
section
/-! DEFINITION. The status flags: the error codes, the `STATUS` word, and the sticky `ERRLOG`
(10_state.md R23, R26, R32; 60_exceptions.md R150). -/

namespace Sys2Proof.Machine

/-- The code of an error (60_exceptions.md R150). -/
def ErrKind.code : ErrKind → BitVec 4
  | .illegal => 1
  | .empty => 2
  | .range => 3
  | .noHist => 4
  | .noCdf => 5
  | .noRef => 6
  | .refLocked => 7
  | .overlap => 8

/-- `STATUS.BUSY`, also the `busy` output (10_state.md R26, 70_reset_and_hazards.md R182). -/
def busy (s : State) : Bool := s.running.isSome

/-- The three valid bits, in the order `HVALID`, `CVALID`, `RVALID`. -/
abbrev ValidBits := Bool × Bool × Bool

/-- The valid bits of a state (10_state.md R26). -/
def validBits (s : State) : ValidBits := (s.hvalid, s.cvalid, s.rvalid)

/-- The `STATUS` word: `BUSY` in bit 0, `ERR` in bits 7:4, the valid bits in bits 8, 9 and 10, all else 0
(10_state.md R26). -/
def statusWord (isBusy : Bool) (err : BitVec 4) (v : ValidBits) : Word :=
  ((BitVec.ofBool v.2.2 ++ BitVec.ofBool v.2.1 ++ BitVec.ofBool v.1 ++ err ++ 0#3 ++ BitVec.ofBool isBusy :
    BitVec 11)).setWidth 32

/-- `STATUS` as a state shows it. -/
def status (s : State) : Word := statusWord (busy s) s.err (validBits s)

/-- The `ERRLOG` word: bits 8:1, all else 0 (10_state.md R32). -/
def errlogWord (e : BitVec 8) : Word := 0#23 ++ e ++ 0#1

/-- `ERRLOG[code] <- 1` (60_exceptions.md R152). -/
def errlogSet (e : BitVec 8) (k : ErrKind) : BitVec 8 := e ||| 1#8 <<< (k.code.toNat - 1)

/-- A write to `ERRLOG` clears every bit `n` in 8:1 for which `v[n]` = 1 (10_state.md R32). -/
def errlogClear (e : BitVec 8) (v : Word) : BitVec 8 := e &&& ~~~(v.extractLsb' 1 8)

/-- A new frame begins: `HIST` clears `HVALID` and `CVALID` (40_histogram.md R100). -/
def clearFrameFlags (s : State) : State := { s with hvalid := false, cvalid := false }

end Sys2Proof.Machine
end

