-- ==== Sys2Proof/Machine/Operands.lean ====
section
/-! DEFINITION. The implicit operands: the frame that the operand registers name, its regions, and the layout of the
register window (10_state.md R21, R24, R39; 20_memory.md R61, R68, R77). -/

namespace Sys2Proof.Machine

/-- `N = WIDTH[15:0] * HEIGHT[15:0]`, exact (10_state.md R30). -/
def pixelCount (s : State) : Nat := s.width.toNat * s.height.toNat

/-- The frame's size in bytes, `3 * N` (20_memory.md R61). -/
def frameBytes (s : State) : Nat := 3 * pixelCount s

/-- The region `SRC .. SRC + 3N - 1` (20_memory.md R66). -/
def srcSpan (s : State) : Span := ⟨s.src.toNat, frameBytes s⟩

/-- The region `DST .. DST + 3N - 1` (20_memory.md R66). -/
def dstSpan (s : State) : Span := ⟨s.dst.toNat, frameBytes s⟩

/-- The address of byte `k` of a region: base plus byte index, in unbounded integers (20_memory.md R77). -/
def Span.addr (r : Span) (k : Nat) : Nat := r.base + k

/-- The region passes the top of the address space (20_memory.md R68). -/
def Span.pastTop (r : Span) : Bool := decide (Config.memSize < r.base + r.len)

/-- An address lies in the region. -/
def Span.contains (r : Span) (a : Nat) : Bool := decide (r.base ≤ a ∧ a < r.base + r.len)

/-- Two regions share an address. -/
def Span.meets (r q : Span) : Bool :=
  decide (0 < r.len ∧ 0 < q.len ∧ r.base < q.base + q.len ∧ q.base < r.base + r.len)

/-- Source and destination regions intersect and differ: the condition of `E_OVERLAP` (43_transform.md R130). -/
def partialOverlap (s : State) : Bool :=
  decide (s.src ≠ s.dst ∧ (srcSpan s).base < (dstSpan s).base + (dstSpan s).len ∧
    (dstSpan s).base < (srcSpan s).base + (srcSpan s).len)

/-- The channel of byte `k` of a frame, `k mod 3` (20_memory.md R61). -/
def channelOf (k : Nat) : Fin 3 := ⟨k % 3, Nat.mod_lt k (by decide)⟩

/-- A sample as a bin index: the bin of a sample `v` is `v` itself (40_histogram.md R101). -/
def binOf (v : Byte) : Fin 256 := v.toFin

/-- The tables a host reaches through the window (10_state.md R24). -/
inductive TableName where
  | cnt
  | hist
  | cdf
  | ref
  | lut
  deriving DecidableEq, Repr

/-- Where a table's window begins (10_state.md R39). -/
def tableBase : TableName → Nat
  | .cnt => 0x1000
  | .hist => 0x2000
  | .cdf => 0x3000
  | .ref => 0x4000
  | .lut => 0x5000

/-- The window offset of `T[c][i]` (10_state.md R39). -/
def entryOffset (t : TableName) (c : Fin 3) (i : Fin 256) : Nat := tableBase t + 0x400 * c.val + 4 * i.val

/-- What a word of the register window is (10_state.md R24). -/
inductive RegAddr where
  | cmd
  | status
  | src
  | dst
  | width
  | height
  | npix
  | errlog
  | table (t : TableName) (c : Fin 3) (i : Fin 256)
  | reserved
  deriving DecidableEq, Repr

/-- The entry at offset `off` of table `t`'s window, `c = (off - BASE)[11:10]`, `i = (off - BASE)[9:2]`; past the
third channel the offset is reserved (10_state.md R39, R24). -/
def tableAddr (t : TableName) (off : Nat) : RegAddr :=
  if h : (off - tableBase t) / 0x400 < 3 then
    .table t ⟨(off - tableBase t) / 0x400, h⟩
      ⟨(off - tableBase t) % 0x400 / 4, by have := Nat.mod_lt (off - tableBase t) (show 0 < 0x400 by decide); omega⟩
  else .reserved

/-- The register map (10_state.md R24): the named registers, five table windows, everything else reserved (R33). -/
def regAddr (off : Nat) : RegAddr :=
  if off < 0x1000 then
    match off with
    | 0x0000 => .cmd
    | 0x0004 => .status
    | 0x0008 => .src
    | 0x000C => .dst
    | 0x0010 => .width
    | 0x0014 => .height
    | 0x0018 => .npix
    | 0x001C => .errlog
    | _ => .reserved
  else if off < 0x2000 then tableAddr .cnt off
  else if off < 0x3000 then tableAddr .hist off
  else if off < 0x4000 then tableAddr .cdf off
  else if off < 0x5000 then tableAddr .ref off
  else if off < 0x6000 then tableAddr .lut off
  else .reserved

end Sys2Proof.Machine
end

