-- ==== Sys2Proof/Machine/Ops.lean ====
section
/-! DEFINITION. The named operations every command is written over: ending a command with an error or with success,
reaching frame memory, answering the host, drawing free values, and the reset of the block. -/

namespace Sys2Proof.Machine

/-- What a step of this machine answers. -/
abbrev Result := Host.Outcome State Fault Refusal

/-- `raise E_X`, the ONE way a command ends with an error (60_exceptions.md R152): `STATUS.ERR` takes the code,
`ERRLOG` gets its bit, `BUSY` falls, nothing else happens. There is no return from it (R158): the block is idle. -/
def raise (k : ErrKind) (s : State) : State :=
  { s with err := k.code, errlog := errlogSet s.errlog k, running := none, progress := 0 }

/-- A command reaches the end of its pseudocode (60_exceptions.md R152): `STATUS.ERR` is 0, `ERRLOG` is unchanged,
`BUSY` falls. -/
def finish (s : State) : State := { s with err := 0, running := none, progress := 0 }

/-- A command whose memory port never answers (70_reset_and_hazards.md R190, 93 U7): it stays running, `BUSY` stays 1. -/
def hang (i : Instr) (s : State) : State := { s with running := some (encode i) }

/-- How the memory port answers accesses to a set of regions. -/
inductive PortReply where
  | plain
  | unbacked
  | silent
  deriving DecidableEq, Repr

/-- A stretch that is not plain memory, as a region. -/
def Region.span (r : Region) : Span := ⟨r.base, r.size⟩

/-- Some stretch of this kind meets one of the regions. -/
def meetsKind (platform : List Region) (kind : RegionKind) (spans : List Span) : Bool :=
  platform.any fun r => r.kind == kind && spans.any fun p => p.meets r.span

/-- The memory port's answer over all the regions of a command (20_memory.md R60, 70_reset_and_hazards.md R190). -/
def portReply (platform : List Region) (spans : List Span) : PortReply :=
  if meetsKind platform .unbacked spans then .unbacked
  else if meetsKind platform .silent spans then .silent
  else .plain

/-- A command that accesses `spans`: it completes in `done` on plain memory, has no meaning on unbacked memory, and
hangs from `begun` on memory that never answers. -/
def accessing (i : Instr) (spans : List Span) (begun done : State) : Result :=
  match portReply begun.platform spans with
  | .plain => .next done
  | .unbacked => .refused .unbackedFrameMemory
  | .silent => .next (hang i begun)

/-- The host gets an answer. -/
def answer (r : Reply) (s : State) : State := { s with replies := s.replies ++ [r] }

/-- One free value is drawn. -/
def drawn (s : State) : State := { s with draws := s.draws + 1 }

/-- The reset state of the block (10_state.md R45, 70_reset_and_hazards.md R180, R181): frame memory is `m`, held
transactions are lost; the host, the platform and the count of free values are outside the block and stay. -/
def resetBlock (m : Memory) (s : State) : State :=
  { State.reset with
    mem := m, inbox := s.inbox, replies := s.replies, platform := s.platform, draws := s.draws }

end Sys2Proof.Machine
end

