-- ==== Sys2Proof/Machine/Cdf.lean ====
section
/-! DEFINITION. `CDF`, the integrator, and `SETREF`, the Reference capture (41_cdf_reference.md). -/

namespace Sys2Proof.Machine

/-- The running sum goes on from `s`: one addition, one rounding per bin, left to right (41_cdf_reference.md R110). -/
def runningSums {V : Type} (F : NumFormat V) : V → List V → List V
  | _, [] => []
  | s, h :: hs => F.add s h :: runningSums F (F.add s h) hs

/-- The inclusive prefix sum; bin 0 is taken as it is, with no addition (41_cdf_reference.md R110). -/
def prefixSums {V : Type} (F : NumFormat V) : List V → List V
  | [] => []
  | h :: hs => h :: runningSums F h hs

theorem length_runningSums {V : Type} (F : NumFormat V) (s : V) (l : List V) :
    (runningSums F s l).length = l.length := by
  induction l generalizing s with
  | nil => rfl
  | cons h hs ih => simp [runningSums, ih]

theorem length_prefixSums {V : Type} (F : NumFormat V) (l : List V) : (prefixSums F l).length = l.length := by
  cases l with
  | nil => rfl
  | cons h hs => simp [prefixSums, length_runningSums]

/-- The prefix sums of a vector. -/
def prefixSumsVec {V : Type} {n : Nat} (F : NumFormat V) (r : Vector V n) : Vector V n :=
  ⟨⟨prefixSums F r.toList⟩, by simp [length_prefixSums]⟩

/-- Table `C` from table `H`, the channels independently (41_cdf_reference.md R110). -/
def integrate {V : Type} (F : NumFormat V) (h : Table V) : Table V := tableOfRows fun c => prefixSumsVec F h[c]

/-- What a `CDF` that passes its check leaves (41_cdf_reference.md R110). -/
def cdfDone (s : State) : State := finish { s with cdf := integrate binary32 s.hist, cvalid := true }

/-- `CDF` (41_cdf_reference.md R110): `E_NOHIST` unless `HVALID`. -/
def execCdf (s : State) : Result :=
  if s.hvalid = false then .next (raise .noHist s) else .next (cdfDone s)

/-- What a `SETREF` that passes its checks leaves: a bit-exact copy of `C` (41_cdf_reference.md R113). -/
def setrefDone (s : State) : State := finish { s with ref := s.cdf, rvalid := true }

/-- `SETREF` (41_cdf_reference.md R113): `E_NOCDF` unless `CVALID`, then `E_REFLOCKED` if `RVALID`. -/
def execSetref (s : State) : Result :=
  if s.cvalid = false then .next (raise .noCdf s)
  else if s.rvalid then .next (raise .refLocked s)
  else .next (setrefDone s)

end Sys2Proof.Machine
end

