-- ==== Sys2Proof/Machine/Hist.lean ====
section
/-! DEFINITION. `HIST`, the histogram estimator (40_histogram.md). -/

namespace Sys2Proof.Machine

/-- `CNT[c][i] <- CNT[c][i] + 1` (40_histogram.md R100). -/
def countSample (t : Table Word) (c : Fin 3) (i : Fin 256) : Table Word := setEntry t c i (entry t c i + 1)

/-- The accumulators after the first `k` bytes of the frame at `base`: byte `k` is counted for channel `k mod 3` in
the bin of its value (40_histogram.md R100, R101). -/
def countBytes (m : Memory) (r : Span) : Nat → Table Word
  | 0 => zeroTable
  | k + 1 => countSample (countBytes m r k) (channelOf k) (binOf (m.read (r.addr k)))

/-- Every count divided by the pixel count, one true division of two converted integers (40_histogram.md R103). -/
def normalise {V : Type} (F : NumFormat V) (cnt : Table Word) (n : Nat) : Table V :=
  tableOfFn fun c i => F.div (F.ofNat (entry cnt c i).toNat) (F.ofNat n)

/-- What a `HIST` that passes its checks leaves (40_histogram.md R100). -/
def histDone (s : State) : State :=
  finish
    { s with
      cnt := countBytes s.mem (srcSpan s) (frameBytes s)
      hist := normalise binary32 (countBytes s.mem (srcSpan s) (frameBytes s)) (pixelCount s)
      npix := BitVec.ofNat 32 (pixelCount s)
      hvalid := true
      cvalid := false }

/-- `HIST` (40_histogram.md R100): the frame flags fall first, then `E_EMPTY`, then `E_RANGE`
(60_exceptions.md R161), then the work. -/
def execHist (s : State) : Result :=
  if pixelCount s = 0 then .next (raise .empty (clearFrameFlags s))
  else if (srcSpan s).pastTop then .next (raise .range (clearFrameFlags s))
  else accessing .hist [srcSpan s] (clearFrameFlags s) (histDone s)

end Sys2Proof.Machine
end

