-- ==== Sys2Proof/Machine/Lut.lean ====
section
/-! DEFINITION. `LUTGEN`, the LUT mapper: the two-pointer sweep with one forward-only cursor per channel
(42_lut.md). -/

namespace Sys2Proof.Machine

/-- `while NUM.lt(R[c][cur], t) and cur < 255: cur <- cur + 1`, for at most `fuel` increments (42_lut.md R120, R121).
The loop makes at most 255, so 255 is always enough. -/
def advanceCursor {V : Type} (F : NumFormat V) (ref : Row V) (t : V) : Nat → Fin 256 → Fin 256
  | 0, cur => cur
  | fuel + 1, cur =>
    if h : cur.val < Config.curMax then
      if F.lt ref[cur] t then advanceCursor F ref t fuel ⟨cur.val + 1, Nat.succ_lt_succ h⟩ else cur
    else cur

/-- The cursor after source value `x`: the threshold `sub(x, EPS)` is rounded once, then compared
(42_lut.md R120, R121). -/
def cursorAfter {V : Type} (F : NumFormat V) (ref : Row V) (cur : Fin 256) (x : V) : Fin 256 :=
  advanceCursor F ref (F.sub x F.eps) Config.curMax cur

/-- `cur - 1`, stored as 8 bits (42_lut.md R120). -/
def lutEntry (cur : Fin 256) : Byte := BitVec.ofNat 8 (cur.val - 1)

/-- The sweep over the source bins in ascending order; the cursor is never reset between bins (42_lut.md R120,
R123). -/
def lutSweep {V : Type} (F : NumFormat V) (ref : Row V) : Fin 256 → List V → List Byte
  | _, [] => []
  | cur, x :: xs => lutEntry (cursorAfter F ref cur x) :: lutSweep F ref (cursorAfter F ref cur x) xs

theorem length_lutSweep {V : Type} (F : NumFormat V) (ref : Row V) (cur : Fin 256) (l : List V) :
    (lutSweep F ref cur l).length = l.length := by
  induction l generalizing cur with
  | nil => rfl
  | cons x xs ih => simp [lutSweep, ih]

/-- The sweep of a vector of source values from the cursor's first value, 1 (42_lut.md R120). -/
def lutVec {V : Type} {n : Nat} (F : NumFormat V) (ref : Row V) (src : Vector V n) : Vector Byte n :=
  ⟨⟨lutSweep F ref 1 src.toList⟩, by simp [length_lutSweep]⟩

/-- Table `L` from the frame's CDF and the Reference, one cursor per channel (42_lut.md R120). -/
def buildLut {V : Type} (F : NumFormat V) (ref src : Table V) : Table Byte :=
  tableOfRows fun c => lutVec F ref[c] src[c]

/-- What a `LUTGEN` that passes its checks leaves (42_lut.md R120). -/
def lutgenDone (s : State) : State := finish { s with lut := buildLut binary32 s.ref s.cdf }

/-- `LUTGEN` (42_lut.md R120): `E_NOCDF` unless `CVALID`, then `E_NOREF` unless `RVALID`. -/
def execLutgen (s : State) : Result :=
  if s.cvalid = false then .next (raise .noCdf s)
  else if s.rvalid = false then .next (raise .noRef s)
  else .next (lutgenDone s)

end Sys2Proof.Machine
end

