-- ==== Sys2Proof/Machine/Xform.lean ====
section
/-! DEFINITION. `XFORM`, the frame transformer (43_transform.md), and what is left of one that reset cuts off
(70_reset_and_hazards.md R181). -/

namespace Sys2Proof.Machine

/-- The image of sample `v` as byte `k` of a frame: `L[k mod 3][v]` (43_transform.md R130). -/
def mapSample (lut : Table Byte) (k : Nat) (v : Byte) : Byte := entry lut (channelOf k) (binOf v)

/-- Frame memory after the first `k` bytes, each read before it is written, in ascending order (43_transform.md R130,
20_memory.md R66). -/
def mapBytes (lut : Table Byte) (src dst : Span) (m : Memory) : Nat → Memory
  | 0 => m
  | k + 1 =>
    (mapBytes lut src dst m k).write (dst.addr k)
      (mapSample lut k ((mapBytes lut src dst m k).read (src.addr k)))

/-- What an `XFORM` that passes its checks leaves (43_transform.md R130). -/
def xformDone (s : State) : State :=
  finish { s with mem := mapBytes s.lut (srcSpan s) (dstSpan s) s.mem (frameBytes s) }

/-- `XFORM` (43_transform.md R130): a frame of no pixels succeeds at once (R134), then `E_RANGE`, then `E_OVERLAP`
(60_exceptions.md R161), then the work. -/
def execXform (s : State) : Result :=
  if pixelCount s = 0 then .next (finish s)
  else if (srcSpan s).pastTop || (dstSpan s).pastTop then .next (raise .range s)
  else if partialOverlap s then .next (raise .overlap s)
  else accessing .xform [srcSpan s, dstSpan s] s (xformDone s)

/-- An `XFORM` that would reach its work: no check of 43_transform.md R130 ends it first. -/
def xformWorks (s : State) : Bool :=
  pixelCount s != 0 && !(srcSpan s).pastTop && !(dstSpan s).pastTop && !partialOverlap s

/-- Frame memory when reset cuts off the work: each of the first `k` destination bytes is, by a free choice of its
own, the old value or the transformed value (70_reset_and_hazards.md R181, 93 U6). -/
def mapSomeBytes (lut : Table Byte) (src dst : Span) (m : Memory) (draw : Nat) : Nat → Memory
  | 0 => m
  | k + 1 =>
    if Config.freeBit (draw + k) then
      (mapSomeBytes lut src dst m draw k).write (dst.addr k) (mapSample lut k (m.read (src.addr k)))
    else mapSomeBytes lut src dst m draw k

/-- Reset while an `XFORM` runs (70_reset_and_hazards.md R181). -/
def abandonXform (s : State) : Result :=
  if xformWorks s then
    match portReply s.platform [srcSpan s, dstSpan s] with
    | .unbacked => .refused .unbackedFrameMemory
    | .plain | .silent =>
      .next (resetBlock (mapSomeBytes s.lut (srcSpan s) (dstSpan s) s.mem s.draws (frameBytes s))
        { s with draws := s.draws + frameBytes s })
  else .next (resetBlock s.mem s)

end Sys2Proof.Machine
end

