-- ==== Sys2Proof/Machine/Dispatch.lean ====
section
/-! DEFINITION. One arm per command (30_encoding.md R85). -/

namespace Sys2Proof.Machine

def exec (i : Instr) (s : State) : Host.Outcome State Fault Refusal :=
  match i with
  | .hist => Sys2Proof.Machine.execHist s
  | .cdf => Sys2Proof.Machine.execCdf s
  | .setref => Sys2Proof.Machine.execSetref s
  | .lutgen => Sys2Proof.Machine.execLutgen s
  | .xform => Sys2Proof.Machine.execXform s

end Sys2Proof.Machine
end

