-- ==== Sys2Proof/Machine/Port.lean ====
section
/-! DEFINITION. The register port while the block is idle: what each read returns and what each write does
(10_state.md R25 to R33, R38 to R42). -/

namespace Sys2Proof.Machine

/-- An entry of a table guarded by a valid bit; while the bit is 0 the read gives a fresh free value
(10_state.md R41, 93 U2; assumption 4). -/
def guardedRead (valid : Bool) (v : Word) (s : State) : Word × State :=
  if valid then (v, s) else (Config.freeWord s.draws, drawn s)

/-- A read of a table window: `CNT` the count, `H`, `C`, `R` the pattern, `L` the entry zero-extended
(10_state.md R34 to R38, R41). -/
def readEntry (t : TableName) (c : Fin 3) (i : Fin 256) (s : State) : Word × State :=
  match t with
  | .cnt => guardedRead s.hvalid (entry s.cnt c i) s
  | .hist => guardedRead s.hvalid (binary32.toBits (entry s.hist c i)) s
  | .cdf => guardedRead s.cvalid (binary32.toBits (entry s.cdf c i)) s
  | .ref => guardedRead s.rvalid (binary32.toBits (entry s.ref c i)) s
  | .lut => ((entry s.lut c i).setWidth 32, s)

/-- `RegRead(off)`: the word and the state after (10_state.md R24 to R33, R38, R39). -/
def regRead (off : Nat) (s : State) : Word × State :=
  match regAddr off with
  | .cmd => (0, s)
  | .status => (status s, s)
  | .src => (s.src, s)
  | .dst => (s.dst, s)
  | .width => (s.width.setWidth 32, s)
  | .height => (s.height.setWidth 32, s)
  | .npix => (s.npix, s)
  | .errlog => (errlogWord s.errlog, s)
  | .table t c i => readEntry t c i s
  | .reserved => (0, s)

/-- A word is written to `CMD` (10_state.md R25): a command makes the block busy; an illegal word executes nothing and
completes at once with `E_ILLEGAL` (30_encoding.md R89, 60_exceptions.md R154). -/
def acceptCommand (w : Word) (s : State) : State :=
  match decode w with
  | some _ => { s with running := some w, progress := 0 }
  | none => raise .illegal s

/-- A write to a table window: `L` stores bits 7:0, the others ignore it (10_state.md R34 to R38). -/
def writeEntry (t : TableName) (c : Fin 3) (i : Fin 256) (v : Word) (s : State) : State :=
  match t with
  | .cnt | .hist | .cdf | .ref => s
  | .lut => { s with lut := setEntry s.lut c i (v.extractLsb' 0 8) }

/-- `RegWrite(off, v)` (10_state.md R24 to R33, R38). -/
def regWrite (off : Nat) (v : Word) (s : State) : State :=
  match regAddr off with
  | .cmd => acceptCommand v s
  | .status => s
  | .src => { s with src := v }
  | .dst => { s with dst := v }
  | .width => { s with width := v.extractLsb' 0 16 }
  | .height => { s with height := v.extractLsb' 0 16 }
  | .npix => s
  | .errlog => { s with errlog := errlogClear s.errlog v }
  | .table t c i => writeEntry t c i v s
  | .reserved => s

/-- A transaction takes effect and the host gets its answer (10_state.md R40 (a)). -/
def performOp (op : PortOp) (s : State) : State :=
  match op with
  | .read _ off => answer (.word (regRead off s).1) (regRead off s).2
  | .write _ off v => answer .done (regWrite off v s)

/-- A transaction completes; one outside the port's protocol has no meaning (10_state.md R42, 93 U5). -/
def completeOp (op : PortOp) (s : State) : Result :=
  if op.wellFormed then .next (performOp op s) else .refused .portProtocol

end Sys2Proof.Machine
end

