-- ==== Sys2Proof/Machine/Sequencer.lean ====
section
/-! DEFINITION. What the machine does next: run the accepted command, complete a held transaction, or take what
arrives from the host (10_state.md R40; 45_host_sequences.md R142; 70_reset_and_hazards.md R180, R181). -/

namespace Sys2Proof.Machine

/-- The accepted command word is decoded and executed to completion (10_state.md R25, 30_encoding.md R88). -/
def runWord (w : Word) (s : State) : Result :=
  match decode w with
  | some i => exec i s
  | none => .next (raise .illegal s)

/-- The valid bits `HIST` shows in mid-command: it clears `HVALID`, then `CVALID`, before its checks
(40_histogram.md R100). No other command changes a valid bit before its end. -/
def midBits (i : Instr) (s : State) : List ValidBits :=
  match i with
  | .hist => [(false, s.cvalid, s.rvalid), (false, false, s.rvalid)]
  | .cdf | .setref | .lutgen | .xform => []

/-- The valid bits a command leaves when it completes; none where it has no completion. -/
def endBits : Result → List ValidBits
  | .next t => [validBits t]
  | .fault _ => []
  | .refused _ => []

/-- The valid bits the running command passes through, in its pseudocode's order (10_state.md R40 (b), 93 U10). -/
def bitsTrace (w : Word) (s : State) : List ValidBits :=
  match decode w with
  | some i => validBits s :: (midBits i s ++ endBits (exec i s))
  | none => [validBits s]

/-- How much further along the trace a `STATUS` read finds the running command: a free value within what is left of
the trace (assumption 8). -/
def pollStride (w : Word) (s : State) : Nat :=
  Config.freeIndex s.draws % max 1 ((bitsTrace w s).length - s.progress)

/-- `RegRead(0x0004)` while `BUSY` = 1: `BUSY` = 1, the previous command's `ERR`, and the valid bits as the running
command has so far left them (10_state.md R40 (b)). -/
def pollStatus (w : Word) (s : State) : State :=
  answer (.word (statusWord true s.err (((bitsTrace w s).drop (s.progress + pollStride w s)).headD (validBits s))))
    (drawn { s with progress := s.progress + pollStride w s })

/-- A register-port transaction arrives while `BUSY` = 1: a read of `STATUS` completes at once, every other one is
held (10_state.md R40 (b)). -/
def holdOp (w : Word) (op : PortOp) (s : State) : Result :=
  if op.wellFormed = false then .refused .portProtocol
  else if op = .read .word 0x0004 then .next (pollStatus w s)
  else .next { s with held := s.held ++ [op] }

/-- A host write of these bytes races with the running command: it touches the source of a `HIST` or `XFORM` or the
destination of an `XFORM` (20_memory.md R72). -/
def racesWrite (s : State) (p : Span) : Bool :=
  match s.running.bind decode with
  | some .hist => p.meets (srcSpan s)
  | some .xform => p.meets (srcSpan s) || p.meets (dstSpan s)
  | some .cdf | some .setref | some .lutgen | none => false

/-- A host read of these bytes races with the running command: it touches the destination of an `XFORM`
(20_memory.md R72). -/
def racesRead (s : State) (p : Span) : Bool :=
  match s.running.bind decode with
  | some .xform => p.meets (dstSpan s)
  | some .hist | some .cdf | some .setref | some .lutgen | none => false

/-- The host places bytes in frame memory (45_host_sequences.md R142). -/
def hostWrite (a : Word) (vs : List Byte) (s : State) : Result :=
  if (Span.mk a.toNat vs.length).pastTop then .fault .noSuchFrameAddress
  else if meetsKind s.platform .unbacked [⟨a.toNat, vs.length⟩] then .refused .unbackedFrameMemory
  else if racesWrite s ⟨a.toNat, vs.length⟩ then .refused .dataRace
  else .next (answer .done { s with mem := s.mem.writeBytes a.toNat vs })

/-- The host reads bytes of frame memory (45_host_sequences.md R142). -/
def hostRead (a : Word) (n : Nat) (s : State) : Result :=
  if (Span.mk a.toNat n).pastTop then .fault .noSuchFrameAddress
  else if meetsKind s.platform .unbacked [⟨a.toNat, n⟩] then .refused .unbackedFrameMemory
  else if racesRead s ⟨a.toNat, n⟩ then .refused .dataRace
  else .next (answer (.bytes (s.mem.readBytes a.toNat n)) s)

/-- Reset is asserted, as one instantaneous input. DESIGN CHOICE, unsafe (assumption 23): the spec gives `rst` as a level
(70_reset_and_hazards.md R182) and does not say what arrives at a block whose `rst` stays asserted; here the next input
is served at once, as if `rst` were released.

A running `XFORM` is cut off (70_reset_and_hazards.md R181), else frame memory is as it was (R180). -/
def hostReset (s : State) : Result :=
  match s.running.bind decode with
  | some .xform => abandonXform s
  | some .hist | some .cdf | some .setref | some .lutgen | none => .next (resetBlock s.mem s)

/-- The head of `inbox` is taken. -/
def taken (s : State) : State := { s with inbox := s.inbox.tail }

/-- The block is busy with the command `w`: what arrives is served beside it, and when nothing arrives the command
runs to completion (10_state.md R25, R40 (b)). -/
def busyStep (w : Word) (s : State) : Result :=
  match s.inbox with
  | [] => runWord w s
  | .tick :: _ => runWord w (taken s)
  | .port op :: _ => holdOp w op (taken s)
  | .memWrite a vs :: _ => hostWrite a vs (taken s)
  | .memRead a n :: _ => hostRead a n (taken s)
  | .reset :: _ => hostReset (taken s)

/-- The block is idle with nothing held: it takes what arrives, and waits when nothing does
(45_host_sequences.md R140, R146). -/
def idleStep (s : State) : Result :=
  match s.inbox with
  | [] => .next s
  | .tick :: _ => .next (taken s)
  | .port op :: _ => completeOp op (taken s)
  | .memWrite a vs :: _ => hostWrite a vs (taken s)
  | .memRead a n :: _ => hostRead a n (taken s)
  | .reset :: _ => hostReset (taken s)

/-- One step. When `BUSY` has fallen, held transactions complete first, in the order in which the host issued them
(10_state.md R40 (b)). -/
def advance (s : State) : Result :=
  match s.running with
  | some w => busyStep w s
  | none =>
    match s.held with
    | op :: ops => completeOp op { s with held := ops }
    | [] => idleStep s

/-- The state in which the block has just accepted the command word `w` and nothing arrives before it runs
(assumption 14). -/
def withCommand (w : Word) (s : State) : State :=
  { s with running := some w, progress := 0, inbox := .tick :: s.inbox }

end Sys2Proof.Machine
end

