-- ==== Sys2Proof/Machine/Step.lean ====
section
/-! DEFINITION. The step of the machine, and the state that runs a given command next. -/

namespace Sys2Proof.Machine

/-- One step of the machine (Machine/Sequencer.lean). -/
def step (s : State) : Host.Outcome State Fault Refusal := advance s

/-- `s` with the command word of `nbits` bits `w` accepted, so that the very next step decodes and runs it. The block
has no program counter and fetches nothing (10_state.md R22): a command comes from a `CMD` write (R25), and this is the
state such a write leaves (assumption 14). -/
def State.withFetchWord (s : State) (nbits w : Nat) : State :=
  withCommand (tableWord nbits w) s

end Sys2Proof.Machine
end

