-- ==== Sys2Proof/Safety.lean ====
section
/-! DEFINITION. The terms the claims use: the invariant of the block, what a valid CDF is, which runs are safe, and the
order of the error checks as the spec's table gives it. -/

namespace Sys2Proof.Machine

/-- The 256 counts of channel `c`, added up (10_state.md R34). -/
def countTotal (t : Table Word) (c : Fin 3) : Nat := (t[c].toList.map BitVec.toNat).sum

/-- Tables `CNT`, `H` and register `NPIX` hold the result of a successful `HIST` (10_state.md R26, R34, R35): the
counts of each channel sum to the pixel count, and every entry of `H` is the quotient of 40_histogram.md R103. -/
structure HistHeld (s : State) : Prop where
  pixels : 0 < s.npix.toNat
  counts : ∀ c : Fin 3, countTotal s.cnt c = s.npix.toNat
  quotients : s.hist = normalise binary32 s.cnt s.npix.toNat

/-- A valid CDF: a table that `CDF` writes from the histogram of some frame (41_cdf_reference.md R112). -/
def ValidCdf (t : Table F32) : Prop :=
  ∃ (cnt : Table Word) (n : Nat), 0 < n ∧ n < 2 ^ 32 ∧ (∀ c : Fin 3, countTotal cnt c = n) ∧
    t = integrate binary32 (normalise binary32 cnt n)

/-- The invariant of the block. -/
structure BlockInv (s : State) : Prop where
  /-- Frame memory is in its canonical form. -/
  memory : s.mem.wf = true
  /-- Codes 9 to 15 are never produced (60_exceptions.md R150). -/
  codes : s.err.toNat ≤ 8
  /-- `CVALID` is never set without `HVALID`: whatever clears `HVALID` clears `CVALID` too (41_cdf_reference.md R110). -/
  cdfNeedsHist : s.cvalid = true → s.hvalid = true
  /-- What `HVALID` says (10_state.md R26). -/
  histHeld : s.hvalid = true → HistHeld s
  /-- What `CVALID` says (10_state.md R26). -/
  cdfHeld : s.cvalid = true → s.cdf = integrate binary32 s.hist
  /-- What `RVALID` says (10_state.md R26, 41_cdf_reference.md R112). -/
  refHeld : s.rvalid = true → ValidCdf s.ref
  /-- Only a command is ever running (30_encoding.md R89). -/
  runsCommand : ∀ w, s.running = some w → (decode w).isSome = true

/-- The regions of frame memory a command accesses (20_memory.md R66). -/
def commandSpans (i : Instr) (s : State) : List Span :=
  match i with
  | .hist => [srcSpan s]
  | .xform => [srcSpan s, dstSpan s]
  | .cdf | .setref | .lutgen => []

/-- Frame memory is plain memory wherever the command accesses it (20_memory.md R60). -/
abbrev OnPlainMemory (i : Instr) (s : State) : Prop := portReply s.platform (commandSpans i s) = .plain

/-- The code of the first error whose condition holds, 0 if none does: the table of 60_exceptions.md R161, each
condition as R155 to R159 give it. -/
def firstError (i : Instr) (s : State) : Nat :=
  match i with
  | .hist =>
    if s.width.toNat * s.height.toNat = 0 then 2
    else if 2 ^ 32 < s.src.toNat + 3 * (s.width.toNat * s.height.toNat) then 3
    else 0
  | .cdf => if s.hvalid then 0 else 4
  | .setref => if s.cvalid then (if s.rvalid then 7 else 0) else 5
  | .lutgen => if s.cvalid then (if s.rvalid then 0 else 6) else 5
  | .xform =>
    if s.width.toNat * s.height.toNat = 0 then 0
    else if 2 ^ 32 < s.src.toNat + 3 * (s.width.toNat * s.height.toNat) ∨
        2 ^ 32 < s.dst.toNat + 3 * (s.width.toNat * s.height.toNat) then 3
    else if s.dst ≠ s.src ∧ s.src.toNat < s.dst.toNat + 3 * (s.width.toNat * s.height.toNat) ∧
        s.dst.toNat < s.src.toNat + 3 * (s.width.toNat * s.height.toNat) then 8
    else 0

/-- The next step takes a reset from the host. -/
abbrev TakesReset (s : State) : Prop := s.inbox.head? = some .reset ∧ (s.running ≠ none ∨ s.held = [])

/-- The number of bytes among the first `n` of a frame at `base` that are samples of channel `c` with value `i`
(10_state.md R34, 20_memory.md R61). -/
def samplesEqual (m : Memory) (base n : Nat) (c : Fin 3) (i : Fin 256) : Nat :=
  (List.range n).countP fun k => k % 3 == c.val && (m.read (base + k)).toNat == i.val

/-- A number of `NUM` is +0 or a positive normal number: all that the rules ever store (00_scope.md R15). -/
abbrev zeroOrNormal (a : F32) : Prop := a = 0 ∨ (f32Neg a = false ∧ 1 ≤ f32Exp a ∧ f32Exp a ≤ 254)

/-- A run of `k` steps ends neither in a fault nor in a refusal. -/
def runsSafely (k : Nat) (s : State) : Bool :=
  match k with
  | 0 => true
  | k + 1 =>
    match step s with
    | .next t => runsSafely k t
    | .fault _ => false
    | .refused _ => false

end Sys2Proof.Machine
end

