-- ==== Sys2Proof/Certificates/Slice0/Obligations.lean ====
section
/-! DEFINITION. The statements for the provers. `N` in a docstring is `WIDTH * HEIGHT`; bit `n` of `ERRLOG` is bit
`n - 1` of the field `errlog`. Statements about a free value hold whatever it is. -/

open Sys2Proof Sys2Proof.Machine

/-- 10_state.md R45. A reset, unless it cuts off an `XFORM`: `STATUS` and all registers 0, `L` the identity, frame
memory as it was. What is unspecified (`CNT`, `H`, `C`, `R`) the statement leaves out; the valid bits that guard it
are 0. The reset that cuts off an `XFORM` is `ResetAbandonsTheCommand`. -/
def Obligations.ResetStateOfTheBlock : Prop :=
  ∀ (s : State) (rest : List Input), s.running ≠ none ∨ s.held = [] → s.inbox = .reset :: rest →
    (∀ w, s.running = some w → decode w ≠ some .xform) →
    ∃ t, step s = .next t ∧ status t = 0 ∧ t.hvalid = false ∧ t.cvalid = false ∧ t.rvalid = false ∧ t.running = none ∧
      t.src = 0 ∧ t.dst = 0 ∧ t.width = 0 ∧ t.height = 0 ∧ t.npix = 0 ∧ errlogWord t.errlog = 0 ∧
      (∀ c i, (entry t.lut c i).toNat = i.val) ∧ t.mem = s.mem

/-- A reset takes the head of what arrives, loses the held transactions (70_reset_and_hazards.md R181), and leaves
what lies outside the block: the model's choice, entry 20 of the log. -/
def Obligations.ResetLeavesTheOutside : Prop :=
  ∀ s t : State, TakesReset s → step s = .next t →
    t.held = [] ∧ t.inbox = s.inbox.tail ∧ t.replies = s.replies ∧ t.platform = s.platform ∧ s.draws ≤ t.draws

/-- 30_encoding.md R88, R89. The five words of the opcode map, and some words the spec names as illegal. -/
def Obligations.CommandWordsDecode : Prop :=
  decode 0x00000001 = some .hist ∧ decode 0x00000002 = some .cdf ∧ decode 0x00000003 = some .setref ∧
    decode 0x00000004 = some .lutgen ∧ decode 0x00000005 = some .xform ∧ decode 0x00000000 = none ∧
    decode 0x00000006 = none ∧ decode 0x000000FF = none ∧ decode 0x00000101 = none ∧ decode 0x80000005 = none ∧
    decode 0xFFFFFFFF = none

/-- 30_encoding.md R88. Decoding and encoding agree on every command and on every 32-bit word; the five commands have
the words 1 to 5, and every other word decodes to nothing. -/
def Obligations.DecodeEncodeAgree : Prop :=
  (∀ i : Instr, i.wellFormed = true ∧ decode (encode i) = some i) ∧
    encode .hist = 0x00000001 ∧ encode .cdf = 0x00000002 ∧ encode .setref = 0x00000003 ∧
    encode .lutgen = 0x00000004 ∧ encode .xform = 0x00000005 ∧
    (∀ (w : Word) (i : Instr), decode w = some i → encode i = w) ∧
    (∀ w : Word, decode w = none ↔ ¬(1 ≤ w.toNat ∧ w.toNat ≤ 5))

/-- 10_state.md R25. When nothing arrives for a busy block, a step is the execution of the decoded command, around
which only a `tick` is taken; and the state made for a table word runs that word's command in its very next step. The
`tick` and the table word's state are the model's choice (entries 1 and 14 of the log). The `tick` and the table
word's state are the model's choice (entries 1 and 14 of the log). -/
def Obligations.StepRunsDecodedCommand : Prop :=
  (∀ (s : State) (w : Word) (i : Instr), s.running = some w → decode w = some i → i.wellFormed = true →
      (s.inbox = [] → step s = exec i s) ∧
      (∀ rest, s.inbox = .tick :: rest → step s = exec i { s with inbox := rest })) ∧
    (∀ (s : State) (nbits w : Nat) (i : Instr), decodeTableWord nbits w = some i →
      step (s.withFetchWord nbits w) = exec i { s with running := some (tableWord nbits w), progress := 0 })

/-- 10_state.md R25, R40 (a). A write of a command word to `CMD` while the block is idle makes it busy with that
command and changes nothing else; the host gets the completion of its write. The list of answers is the model's choice
(entry 17 of the log). The list of answers is the model's choice (entry 17 of the log). -/
def Obligations.CmdWriteStartsCommand : Prop :=
  ∀ (s : State) (w : Word) (i : Instr) (rest : List Input), s.running = none → s.held = [] →
    s.inbox = .port (.write .word 0x0000 w) :: rest → decode w = some i →
    step s = .next
      { s with running := some w, progress := 0, inbox := rest, replies := s.replies ++ [.done] }

/-- 60_exceptions.md R154. A word not in {1, 2, 3, 4, 5} written to `CMD` of an idle block: only the error is recorded
(10_state.md R32: bit 1 of `ERRLOG`); no table, flag, register or memory byte changes. -/
def Obligations.IllegalWordOnlyRecordsItsError : Prop :=
  ∀ (s : State) (w : Word), s.running = none → ¬(1 ≤ w.toNat ∧ w.toNat ≤ 5) →
    regWrite 0x0000 w s = { s with err := 1, errlog := s.errlog ||| 1, progress := 0 }

/-- 40_histogram.md R100. `HIST` on every state: `E_EMPTY`, else `E_RANGE`, else on plain memory the counts, the
quotients, `NPIX` and `HVALID`; everything else stays. -/
def Obligations.HistCountsAndNormalises : Prop :=
  ∀ s : State,
    (s.width.toNat * s.height.toNat = 0 →
      exec .hist s = .next
        { s with hvalid := false, cvalid := false, err := 2, errlog := s.errlog ||| 2, running := none, progress := 0 }) ∧
    (s.width.toNat * s.height.toNat ≠ 0 → 2 ^ 32 < s.src.toNat + 3 * (s.width.toNat * s.height.toNat) →
      exec .hist s = .next
        { s with hvalid := false, cvalid := false, err := 3, errlog := s.errlog ||| 4, running := none, progress := 0 }) ∧
    (s.width.toNat * s.height.toNat ≠ 0 → s.src.toNat + 3 * (s.width.toNat * s.height.toNat) ≤ 2 ^ 32 →
      OnPlainMemory .hist s →
      ∃ t, exec .hist s = .next t ∧
        (∀ c i, (entry t.cnt c i).toNat =
          samplesEqual s.mem s.src.toNat (3 * (s.width.toNat * s.height.toNat)) c i) ∧
        (∀ c i, entry t.hist c i =
          binary32.div (binary32.ofNat (entry t.cnt c i).toNat) (binary32.ofNat (s.width.toNat * s.height.toNat))) ∧
        t.npix.toNat = s.width.toNat * s.height.toNat ∧
        t = { s with cnt := t.cnt, hist := t.hist, npix := t.npix, hvalid := true, cvalid := false, err := 0,
                     running := none, progress := 0 })

/-- 40_histogram.md R102. After a successful `HIST` the 256 counts of each channel sum to the pixel count. -/
def Obligations.CountsSumToPixelCount : Prop :=
  ∀ s t : State, exec .hist s = .next t → t.running = none → t.err = 0 →
    ∀ c : Fin 3, countTotal t.cnt c = s.width.toNat * s.height.toNat

/-- 41_cdf_reference.md R110. `CDF` on every state: `E_NOHIST`, else the inclusive prefix sums from bin 0 up, one
rounded addition per bin; everything else stays. -/
def Obligations.CdfIntegratesLeftToRight : Prop :=
  ∀ s : State,
    (s.hvalid = false →
      exec .cdf s = .next { s with err := 4, errlog := s.errlog ||| 8, running := none, progress := 0 }) ∧
    (s.hvalid = true →
      ∃ t, exec .cdf s = .next t ∧
        (∀ c, entry t.cdf c 0 = entry s.hist c 0) ∧
        (∀ c (i : Nat) (hi : i + 1 < 256), entry t.cdf c ⟨i + 1, hi⟩ =
          binary32.add (entry t.cdf c ⟨i, Nat.lt_of_succ_lt hi⟩) (entry s.hist c ⟨i + 1, hi⟩)) ∧
        t = { s with cdf := t.cdf, cvalid := true, err := 0, running := none, progress := 0 })

/-- 41_cdf_reference.md R113. `SETREF` on every state: `E_NOCDF`, else `E_REFLOCKED`, else `R` becomes a copy of `C`;
everything else stays. -/
def Obligations.SetrefCapturesOnce : Prop :=
  ∀ s : State,
    (s.cvalid = false →
      exec .setref s = .next { s with err := 5, errlog := s.errlog ||| 16, running := none, progress := 0 }) ∧
    (s.cvalid = true → s.rvalid = true →
      exec .setref s = .next { s with err := 7, errlog := s.errlog ||| 64, running := none, progress := 0 }) ∧
    (s.cvalid = true → s.rvalid = false →
      exec .setref s = .next { s with ref := s.cdf, rvalid := true, err := 0, running := none, progress := 0 })

/-- 42_lut.md R120. `LUTGEN` on every state: `E_NOCDF`, else `E_NOREF`, else for each channel one cursor that starts
at 1, never moves back, passes exactly the reference bins below the rounded threshold, stops at 255 or at the first
bin not below it, and gives each entry as the cursor less one; everything else stays. -/
def Obligations.LutgenSweepsOneCursor : Prop :=
  ∀ s : State,
    (s.cvalid = false →
      exec .lutgen s = .next { s with err := 5, errlog := s.errlog ||| 16, running := none, progress := 0 }) ∧
    (s.cvalid = true → s.rvalid = false →
      exec .lutgen s = .next { s with err := 6, errlog := s.errlog ||| 32, running := none, progress := 0 }) ∧
    (s.cvalid = true → s.rvalid = true →
      ∃ (t : State) (cur : Fin 3 → Nat → Fin 256), exec .lutgen s = .next t ∧
        (∀ c, (cur c 0).val = 1) ∧
        (∀ c (b : Fin 256),
          (cur c b.val).val ≤ (cur c (b.val + 1)).val ∧
          (∀ j : Fin 256, (cur c b.val).val ≤ j.val → j.val < (cur c (b.val + 1)).val →
            binary32.lt (entry s.ref c j) (binary32.sub (entry s.cdf c b) Config.epsBits) = true) ∧
          ((cur c (b.val + 1)).val = 255 ∨
            binary32.lt (entry s.ref c (cur c (b.val + 1))) (binary32.sub (entry s.cdf c b) Config.epsBits) = false) ∧
          (entry t.lut c b).toNat = (cur c (b.val + 1)).val - 1) ∧
        t = { s with lut := t.lut, err := 0, running := none, progress := 0 })

/-- 43_transform.md R130. `XFORM` on every state whose memory is in canonical form: success at once for `N` = 0, else
`E_RANGE`, else `E_OVERLAP`, else on plain memory byte `k` of the destination becomes the image of the byte that stood
at byte `k` of the source; every other byte and everything else stays. -/
def Obligations.XformMapsTheFrame : Prop :=
  ∀ s : State, s.mem.wf = true →
    (s.width.toNat * s.height.toNat = 0 →
      exec .xform s = .next { s with err := 0, running := none, progress := 0 }) ∧
    (s.width.toNat * s.height.toNat ≠ 0 →
      (2 ^ 32 < s.src.toNat + 3 * (s.width.toNat * s.height.toNat) ∨
        2 ^ 32 < s.dst.toNat + 3 * (s.width.toNat * s.height.toNat)) →
      exec .xform s = .next { s with err := 3, errlog := s.errlog ||| 4, running := none, progress := 0 }) ∧
    (s.width.toNat * s.height.toNat ≠ 0 →
      s.src.toNat + 3 * (s.width.toNat * s.height.toNat) ≤ 2 ^ 32 →
      s.dst.toNat + 3 * (s.width.toNat * s.height.toNat) ≤ 2 ^ 32 →
      (s.src ≠ s.dst ∧ s.src.toNat < s.dst.toNat + 3 * (s.width.toNat * s.height.toNat) ∧
        s.dst.toNat < s.src.toNat + 3 * (s.width.toNat * s.height.toNat)) →
      exec .xform s = .next { s with err := 8, errlog := s.errlog ||| 128, running := none, progress := 0 }) ∧
    (s.width.toNat * s.height.toNat ≠ 0 →
      s.src.toNat + 3 * (s.width.toNat * s.height.toNat) ≤ 2 ^ 32 →
      s.dst.toNat + 3 * (s.width.toNat * s.height.toNat) ≤ 2 ^ 32 →
      ¬(s.src ≠ s.dst ∧ s.src.toNat < s.dst.toNat + 3 * (s.width.toNat * s.height.toNat) ∧
        s.dst.toNat < s.src.toNat + 3 * (s.width.toNat * s.height.toNat)) →
      OnPlainMemory .xform s →
      ∃ t, exec .xform s = .next t ∧
        (∀ k, k < 3 * (s.width.toNat * s.height.toNat) →
          t.mem.read (s.dst.toNat + k) =
            entry s.lut ⟨k % 3, Nat.mod_lt k (by decide)⟩ (s.mem.read (s.src.toNat + k)).toFin) ∧
        (∀ a, (a < s.dst.toNat ∨ s.dst.toNat + 3 * (s.width.toNat * s.height.toNat) ≤ a) →
          t.mem.read a = s.mem.read a) ∧
        t.mem.wf = true ∧
        t = { s with mem := t.mem, err := 0, running := none, progress := 0 })

/-- 60_exceptions.md R161. A command that ends has raised the first error whose condition holds, in the order of the
table, or none; a word that is no command raises `E_ILLEGAL` and runs no other check. -/
def Obligations.FirstErrorIsReported : Prop :=
  (∀ (i : Instr) (s t : State), exec i s = .next t → t.running = none → t.err.toNat = firstError i s) ∧
    (∀ (w : Word) (s : State), decode w = none →
      acceptCommand w s = { s with err := 1, errlog := s.errlog ||| 1, running := none, progress := 0 })

/-- 60_exceptions.md R152, R153. A command that ends with an error has changed nothing but the error record, and for
`HIST` the two valid bits of the frame; one that ends without an error leaves `ERRLOG` as it was. -/
def Obligations.ErrorsArePrecise : Prop :=
  ∀ (i : Instr) (s t : State), exec i s = .next t → t.running = none →
    (t.err ≠ 0 →
      t.err.toNat ≤ 8 ∧
      t = { s with err := t.err, errlog := s.errlog ||| 1#8 <<< (t.err.toNat - 1), running := none, progress := 0,
                   hvalid := s.hvalid && i != .hist, cvalid := s.cvalid && i != .hist }) ∧
    (t.err = 0 → t.errlog = s.errlog)

/-- 70_reset_and_hazards.md R190. Every command terminates on frame memory that answers: it ends in a next state in
which the block is idle. -/
def Obligations.EveryCommandTerminates : Prop :=
  ∀ (i : Instr) (s : State), OnPlainMemory i s → ∃ t, exec i s = .next t ∧ t.running = none

/-- 10_state.md R21. No command, however it ends, writes an operand register; and none writes the platform, the held
transactions or what arrives. -/
def Obligations.NoCommandWritesOperands : Prop :=
  ∀ (i : Instr) (s t : State), exec i s = .next t →
    t.src = s.src ∧ t.dst = s.dst ∧ t.width = s.width ∧ t.height = s.height ∧ t.platform = s.platform ∧
      t.held = s.held ∧ t.inbox = s.inbox ∧ t.replies = s.replies ∧ t.draws = s.draws

/-- 20_memory.md R60. A `HIST` or `XFORM` that passes its checks and whose region meets unbacked memory is refused.
The map of unbacked memory is the model's choice (entry 6 of the log). -/
def Obligations.UnbackedMemoryIsRefused : Prop :=
  ∀ (i : Instr) (s : State), i = .hist ∨ i = .xform → s.width.toNat * s.height.toNat ≠ 0 → firstError i s = 0 →
    portReply s.platform (commandSpans i s) = .unbacked → exec i s = .refused .unbackedFrameMemory

/-- 70_reset_and_hazards.md R190. On a memory port that never answers a `HIST` or `XFORM` that passes its checks
hangs: `BUSY` stays 1, frame memory is as it was, and running it again changes nothing more. The hang is the model's
reading (entry 7 of the log). The hang is the model's reading (entry 7 of the log). -/
def Obligations.SilentMemoryHangs : Prop :=
  ∀ (i : Instr) (s : State), i = .hist ∨ i = .xform → s.width.toNat * s.height.toNat ≠ 0 → firstError i s = 0 →
    portReply s.platform (commandSpans i s) = .silent →
    ∃ t, exec i s = .next t ∧ busy t = true ∧ t.mem = s.mem ∧ exec i t = .next t

/-- The invariant of the block holds right after reset. -/
def Obligations.ResetHasBlockInv : Prop := BlockInv State.reset

/-- The invariant of the block is kept by every step, whatever arrives: canonical memory, codes 0 to 8, `CVALID` only
with `HVALID`, and each table what its valid bit says it is (10_state.md R26, R34 to R37; 41_cdf_reference.md
R112). -/
def Obligations.EveryStepKeepsBlockInv : Prop :=
  ∀ s t : State, BlockInv s → step s = .next t → BlockInv t

/-- 41_cdf_reference.md R114. Once `RVALID` is 1, no step but one that takes a reset changes the Reference or clears
`RVALID`. -/
def Obligations.ReferenceIsImmutable : Prop :=
  ∀ s t : State, s.rvalid = true → step s = .next t → ¬TakesReset s → t.ref = s.ref ∧ t.rvalid = true

/-- 10_state.md R40 (b). While `BUSY` is 1 a transaction inside the protocol other than a read of `STATUS` is held and
nothing else happens; when `BUSY` has fallen the oldest held transaction completes first, whatever has arrived. The
order of arrivals is the model's choice (entry 1 of the log). The order of arrivals is the model's choice (entry 1 of
the log). -/
def Obligations.BusyPortHoldsTransactions : Prop :=
  (∀ (s : State) (w : Word) (op : PortOp) (rest : List Input), s.running = some w → s.inbox = .port op :: rest →
      op.wellFormed = true → op ≠ .read .word 0x0004 →
      step s = .next { s with held := s.held ++ [op], inbox := rest }) ∧
    (∀ (s : State) (op : PortOp) (ops : List PortOp), s.running = none → s.held = op :: ops → op.wellFormed = true →
      step s = .next (performOp op { s with held := ops }))

/-- 10_state.md R40 (b). A read of `STATUS` while `BUSY` is 1 completes at once: `BUSY` = 1, the previous command's
`ERR`, and valid bits the running command passes through; only the answer and the model's own counters change. Which
of the bits it returns is a free value (entry 8 of the log). Which of the bits it returns is a free value (entry 8 of
the log). -/
def Obligations.StatusReadWhileBusy : Prop :=
  ∀ (s : State) (w : Word) (rest : List Input), s.running = some w →
    s.inbox = .port (.read .word 0x0004) :: rest →
    ∃ (t : State) (v : ValidBits), step s = .next t ∧
      (v ∈ bitsTrace w { s with inbox := rest } ∨ v = validBits s) ∧
      t = { s with inbox := rest, replies := s.replies ++ [.word (statusWord true s.err v)], draws := s.draws + 1,
                   progress := t.progress }

/-- 10_state.md R40 (a). A transaction inside the protocol completes at once while the block is idle, a read with its
word, a write with its effect. -/
def Obligations.IdlePortCompletesAtOnce : Prop :=
  (∀ (s : State) (off : Nat) (rest : List Input), s.running = none → s.held = [] →
      s.inbox = .port (.read .word off) :: rest → off % 4 = 0 → off < 0x8000 →
      ∃ v t, regRead off { s with inbox := rest } = (v, t) ∧
        step s = .next { t with replies := s.replies ++ [.word v] }) ∧
    (∀ (s : State) (off : Nat) (v : Word) (rest : List Input), s.running = none → s.held = [] →
      s.inbox = .port (.write .word off v) :: rest → off % 4 = 0 → off < 0x8000 →
      ∃ t, regWrite off v { s with inbox := rest } = t ∧ step s = .next { t with replies := s.replies ++ [.done] })

/-- 10_state.md R42. An access that is not an aligned 32-bit word inside the window is refused, idle or busy. -/
def Obligations.PortProtocolIsEnforced : Prop :=
  ∀ (s : State) (op : PortOp) (rest : List Input), s.running ≠ none ∨ s.held = [] → s.inbox = .port op :: rest →
    (∀ size off, (op = .read size off ∨ ∃ v, op = .write size off v) → size ≠ .word ∨ off % 4 ≠ 0 ∨ 0x8000 ≤ off) →
    step s = .refused .portProtocol

/-- 10_state.md R27 to R30. The operand registers store what is written and read it back, `WIDTH` and `HEIGHT` in bits
15:0 alone; a write changes nothing else. -/
def Obligations.OperandRegistersReadBack : Prop :=
  ∀ (s : State) (v : Word),
    (regRead 0x0008 (regWrite 0x0008 v s)).1 = v ∧ (regRead 0x000C (regWrite 0x000C v s)).1 = v ∧
    (regRead 0x0010 (regWrite 0x0010 v s)).1 = v &&& 0x0000FFFF ∧
    (regRead 0x0014 (regWrite 0x0014 v s)).1 = v &&& 0x0000FFFF ∧
    regWrite 0x0008 v s = { s with src := v } ∧ regWrite 0x000C v s = { s with dst := v } ∧
    regWrite 0x0010 v s = { s with width := v.extractLsb' 0 16 } ∧
    regWrite 0x0014 v s = { s with height := v.extractLsb' 0 16 }

/-- 10_state.md R26. `STATUS` bit by bit; a write is ignored, a read changes nothing. -/
def Obligations.StatusLayout : Prop :=
  ∀ (s : State) (v : Word), regWrite 0x0004 v s = s ∧ (regRead 0x0004 s).2 = s ∧
    (regRead 0x0004 s).1.getLsbD 0 = busy s ∧ (regRead 0x0004 s).1.extractLsb' 1 3 = 0 ∧
    (regRead 0x0004 s).1.extractLsb' 4 4 = s.err ∧ (regRead 0x0004 s).1.getLsbD 8 = s.hvalid ∧
    (regRead 0x0004 s).1.getLsbD 9 = s.cvalid ∧ (regRead 0x0004 s).1.getLsbD 10 = s.rvalid ∧
    (regRead 0x0004 s).1.extractLsb' 11 21 = 0

/-- 10_state.md R25, R31. `CMD` reads 0 and its read has no effect; `NPIX` reads its value and ignores writes. -/
def Obligations.CommandAndPixelCountRegisters : Prop :=
  ∀ (s : State) (v : Word),
    regRead 0x0000 s = (0, s) ∧ regRead 0x0018 s = (s.npix, s) ∧ regWrite 0x0018 v s = s

/-- 10_state.md R32. A write to `ERRLOG` clears exactly the bits written as 1 among bits 8:1, never sets one, and
changes nothing else; bits 0 and 31:9 read 0. -/
def Obligations.ErrlogIsWriteOneToClear : Prop :=
  ∀ (s : State) (v : Word) (n : Nat),
    (regRead 0x001C (regWrite 0x001C v s)).1.getLsbD n = ((regRead 0x001C s).1.getLsbD n && !v.getLsbD n) ∧
      ((regRead 0x001C s).1.getLsbD n = true → 1 ≤ n ∧ n ≤ 8) ∧
      regWrite 0x001C v s = { s with errlog := (regWrite 0x001C v s).errlog }

/-- 10_state.md R33, R24. Every reserved offset of the window reads 0 and ignores writes, and neither changes
anything. -/
def Obligations.ReservedOffsetsAreInert : Prop :=
  ∀ (s : State) (v : Word) (off : Nat), off % 4 = 0 →
    (0x0020 ≤ off ∧ off < 0x1000) ∨ (0x1C00 ≤ off ∧ off < 0x2000) ∨ (0x2C00 ≤ off ∧ off < 0x3000) ∨
      (0x3C00 ≤ off ∧ off < 0x4000) ∨ (0x4C00 ≤ off ∧ off < 0x5000) ∨ (0x5C00 ≤ off ∧ off < 0x8000) →
    regRead off s = (0, s) ∧ regWrite off v s = s

/-- 10_state.md R39, R34 to R38. Under its valid bit, a table window returns entry `T[c][i]` at `BASE + 0x400 * c + 4
* i`, and a read changes nothing; `L` is always readable, zero-extended. -/
def Obligations.TableWindowsShowTheTables : Prop :=
  ∀ (s : State) (c : Fin 3) (i : Fin 256),
    (s.hvalid = true → regRead (0x1000 + 0x400 * c.val + 4 * i.val) s = (entry s.cnt c i, s) ∧
      regRead (0x2000 + 0x400 * c.val + 4 * i.val) s = (entry s.hist c i, s)) ∧
    (s.cvalid = true → regRead (0x3000 + 0x400 * c.val + 4 * i.val) s = (entry s.cdf c i, s)) ∧
    (s.rvalid = true → regRead (0x4000 + 0x400 * c.val + 4 * i.val) s = (entry s.ref c i, s)) ∧
    regRead (0x5000 + 0x400 * c.val + 4 * i.val) s = ((entry s.lut c i).setWidth 32, s)

/-- 10_state.md R41. A read of a `CNT`, `H`, `C` or `R` entry while its valid bit is 0 completes with an unspecified
word: a free value, a new one for each read; nothing else changes. The free value is the model's choice (entry 4 of
the log). The free value is the model's choice (entry 4 of the log). -/
def Obligations.InvalidTableReadIsUnspecified : Prop :=
  ∀ (s : State) (c : Fin 3) (i : Fin 256),
    (s.hvalid = false →
      regRead (0x1000 + 0x400 * c.val + 4 * i.val) s = (Config.freeWord s.draws, { s with draws := s.draws + 1 }) ∧
      regRead (0x2000 + 0x400 * c.val + 4 * i.val) s = (Config.freeWord s.draws, { s with draws := s.draws + 1 })) ∧
    (s.cvalid = false →
      regRead (0x3000 + 0x400 * c.val + 4 * i.val) s = (Config.freeWord s.draws, { s with draws := s.draws + 1 })) ∧
    (s.rvalid = false →
      regRead (0x4000 + 0x400 * c.val + 4 * i.val) s = (Config.freeWord s.draws, { s with draws := s.draws + 1 }))

/-- 10_state.md R38, R34 to R37. A write to an `L` entry stores bits 7:0 there and leaves every other entry and all
else alone; writes to the windows of `CNT`, `H`, `C`, `R` are ignored. -/
def Obligations.LutWindowStoresLowByte : Prop :=
  ∀ (s : State) (v : Word) (c : Fin 3) (i : Fin 256),
    (∃ t, regWrite (0x5000 + 0x400 * c.val + 4 * i.val) v s = t ∧
      (entry t.lut c i).toNat = v.toNat % 256 ∧
      (∀ c' i', (c' ≠ c ∨ i' ≠ i) → entry t.lut c' i' = entry s.lut c' i') ∧ t = { s with lut := t.lut }) ∧
    regWrite (0x1000 + 0x400 * c.val + 4 * i.val) v s = s ∧ regWrite (0x2000 + 0x400 * c.val + 4 * i.val) v s = s ∧
    regWrite (0x3000 + 0x400 * c.val + 4 * i.val) v s = s ∧ regWrite (0x4000 + 0x400 * c.val + 4 * i.val) v s = s

/-- 70_reset_and_hazards.md R181. Reset while a command runs: the block is in the reset state, held transactions are
lost, and frame memory is as it was, except that for an `XFORM` each destination byte holds either its old or its
transformed value. The choice for each byte is a free value (entry 9 of the log); an `XFORM` at work on unbacked
memory is left out (entry 6). The choice for each byte is a free value (entry 9 of the log); an `XFORM` at work on
unbacked memory is left out (entry 6). -/
def Obligations.ResetAbandonsTheCommand : Prop :=
  ∀ (s : State) (w : Word) (i : Instr) (rest : List Input), s.mem.wf = true → s.running = some w →
    decode w = some i → s.inbox = .reset :: rest →
    (i = .xform → firstError i s = 0 → portReply s.platform (commandSpans i s) ≠ .unbacked) →
    ∃ t, step s = .next t ∧ status t = 0 ∧ errlogWord t.errlog = 0 ∧ t.held = [] ∧ t.running = none ∧ t.inbox = rest ∧
      t.src = 0 ∧ t.dst = 0 ∧ t.width = 0 ∧ t.height = 0 ∧ t.npix = 0 ∧
      (∀ c j, (entry t.lut c j).toNat = j.val) ∧
      (i ≠ .xform → t.mem = s.mem) ∧
      (∀ a, (a < s.dst.toNat ∨ s.dst.toNat + 3 * (s.width.toNat * s.height.toNat) ≤ a) →
        t.mem.read a = s.mem.read a) ∧
      (∀ k, k < 3 * (s.width.toNat * s.height.toNat) →
        t.mem.read (s.dst.toNat + k) = s.mem.read (s.dst.toNat + k) ∨
        t.mem.read (s.dst.toNat + k) =
          entry s.lut ⟨k % 3, Nat.mod_lt k (by decide)⟩ (s.mem.read (s.src.toNat + k)).toFin)

/-- 20_memory.md R72. A host write to the source of a running `HIST` or `XFORM` or to the destination of a running
`XFORM`, and a host read of that destination, are refused. The refusal is the model's choice (entry 12 of the log). -/
def Obligations.DataRacesAreRefused : Prop :=
  (∀ (s : State) (w : Word) (i : Instr) (a : Word) (vs : List Byte) (rest : List Input),
      s.running = some w → decode w = some i → s.inbox = .memWrite a vs :: rest →
      a.toNat + vs.length ≤ 2 ^ 32 → meetsKind s.platform .unbacked [⟨a.toNat, vs.length⟩] = false →
      ((i = .hist ∨ i = .xform) ∧ Span.meets ⟨a.toNat, vs.length⟩ (srcSpan s) = true ∨
        i = .xform ∧ Span.meets ⟨a.toNat, vs.length⟩ (dstSpan s) = true) →
      step s = .refused .dataRace) ∧
    (∀ (s : State) (w : Word) (a : Word) (n : Nat) (rest : List Input),
      s.running = some w → decode w = some .xform → s.inbox = .memRead a n :: rest →
      a.toNat + n ≤ 2 ^ 32 → meetsKind s.platform .unbacked [⟨a.toNat, n⟩] = false →
      Span.meets ⟨a.toNat, n⟩ (dstSpan s) = true → step s = .refused .dataRace)

/-- 45_host_sequences.md R142, 20_memory.md R60. A frame the host places in plain frame memory of an idle block is the
frame it reads back, and every byte outside it is as it was. The host's access and its answers are the model's choice
(entries 17 and 19 of the log). The host's access and its answers are the model's choice (entries 17 and 19 of the
log). -/
def Obligations.HostFrameIsRemembered : Prop :=
  ∀ (s : State) (a : Word) (vs : List Byte) (rest : List Input), s.mem.wf = true → s.running = none → s.held = [] →
    s.inbox = .memWrite a vs :: .memRead a vs.length :: rest → a.toNat + vs.length ≤ 2 ^ 32 →
    meetsKind s.platform .unbacked [⟨a.toNat, vs.length⟩] = false →
    ∃ t u, step s = .next t ∧ step t = .next u ∧ u.replies = s.replies ++ [.done, .bytes vs] ∧ u.mem = t.mem ∧
      (∀ b, (b < a.toNat ∨ a.toNat + vs.length ≤ b) → t.mem.read b = s.mem.read b)

/-- 00_scope.md R17 (a), 42_lut.md R122. For every number format and whatever the two tables hold, every LUT entry the
mapper writes is at most 254. -/
def Obligations.LutEntriesAtMost254 : Prop :=
  ∀ (V : Type) (F : NumFormat V) (ref src : Table V) (c : Fin 3) (b : Fin 256),
    (entry (buildLut F ref src) c b).toNat ≤ 254

/-- 00_scope.md R17 (b), 42_lut.md R123. For every number format and whatever the two tables hold, every LUT the
mapper writes is non-decreasing in the bin index within each channel. -/
def Obligations.LutIsNonDecreasing : Prop :=
  ∀ (V : Type) (F : NumFormat V) (ref src : Table V) (c : Fin 3) (b b' : Fin 256), b ≤ b' →
    (entry (buildLut F ref src) c b).toNat ≤ (entry (buildLut F ref src) c b').toNat

/-- 42_lut.md R121 (e). For every number format and whatever the tables hold, the LUT does not depend on bin 0 of the
Reference. -/
def Obligations.LutIgnoresReferenceBinZero : Prop :=
  ∀ (V : Type) (F : NumFormat V) (ref ref' src : Table V),
    (∀ (c : Fin 3) (j : Fin 256), 1 ≤ j.val → entry ref c j = entry ref' c j) →
    buildLut F ref src = buildLut F ref' src

/-- 42_lut.md R124. The closed form: where the thresholds are non-decreasing and none is a NaN, whatever the reference
holds, entry `b` is one less than the least reference bin, counted from bin 1, that is not below the threshold of `b`,
and 254 where there is none below 255. -/
def Obligations.LutClosedForm : Prop :=
  ∀ (ref src : Table F32) (c : Fin 3),
    (∀ b, f32IsNaN (binary32.sub (entry src c b) Config.epsBits) = false) →
    (∀ b b' : Fin 256, b ≤ b' → binary32.lt (binary32.sub (entry src c b') Config.epsBits)
      (binary32.sub (entry src c b) Config.epsBits) = false) →
    ∀ b : Fin 256,
      (∀ j : Fin 256, 1 ≤ j.val → j.val ≤ (entry (buildLut binary32 ref src) c b).toNat →
        binary32.lt (entry ref c j) (binary32.sub (entry src c b) Config.epsBits) = true) ∧
      ((entry (buildLut binary32 ref src) c b).toNat = 254 ∨
        ∃ j : Fin 256, j.val = (entry (buildLut binary32 ref src) c b).toNat + 1 ∧
          binary32.lt (entry ref c j) (binary32.sub (entry src c b) Config.epsBits) = false)

/-- 43_transform.md R132 (a). With the identity LUT a successful `XFORM` reproduces the frame exactly. -/
def Obligations.IdentityLutCopiesTheFrame : Prop :=
  ∀ s t : State, s.mem.wf = true → (∀ c i, (entry s.lut c i).toNat = i.val) → exec .xform s = .next t →
    t.running = none → t.err = 0 →
    ∀ k, k < 3 * (s.width.toNat * s.height.toNat) → t.mem.read (s.dst.toNat + k) = s.mem.read (s.src.toNat + k)

/-- 43_transform.md R132 (c). Under a LUT that is non-decreasing in each channel, a successful `XFORM` never inverts
the order of two samples of the same channel. -/
def Obligations.TransformKeepsOrder : Prop :=
  ∀ s t : State, s.mem.wf = true →
    (∀ (c : Fin 3) (b b' : Fin 256), b ≤ b' → (entry s.lut c b).toNat ≤ (entry s.lut c b').toNat) →
    exec .xform s = .next t → t.running = none → t.err = 0 →
    ∀ k k', k < 3 * (s.width.toNat * s.height.toNat) → k' < 3 * (s.width.toNat * s.height.toNat) → k % 3 = k' % 3 →
      (s.mem.read (s.src.toNat + k)).toNat ≤ (s.mem.read (s.src.toNat + k')).toNat →
      (t.mem.read (s.dst.toNat + k)).toNat ≤ (t.mem.read (s.dst.toNat + k')).toNat

/-- 43_transform.md R132 (d). The output of a successful `XFORM` that follows a successful `LUTGEN` contains no sample
of value 255. -/
def Obligations.MatchedFrameHasNo255 : Prop :=
  ∀ s t u : State, s.mem.wf = true → exec .lutgen s = .next t → t.err = 0 → exec .xform t = .next u →
    u.running = none → u.err = 0 →
    ∀ k, k < 3 * (s.width.toNat * s.height.toNat) → u.mem.read (s.dst.toNat + k) ≠ 255

/-- 41_cdf_reference.md R111 (a). Under the invariant of the block, a valid `C` is non-decreasing in each channel. -/
def Obligations.CdfIsNonDecreasing : Prop :=
  ∀ s : State, BlockInv s → s.cvalid = true → ∀ (c : Fin 3) (i : Nat) (hi : i + 1 < 256),
    f32Units (entry s.cdf c ⟨i, Nat.lt_of_succ_lt hi⟩) ≤ f32Units (entry s.cdf c ⟨i + 1, hi⟩)

/-- 00_scope.md R15. Under the invariant of the block, every entry of a valid `H`, `C` or `R` is +0 or a positive
normal number: no NaN, no infinity, no negative zero, no subnormal. -/
def Obligations.StoredNumbersAreZeroOrNormal : Prop :=
  ∀ s : State, BlockInv s → ∀ (c : Fin 3) (i : Fin 256),
    (s.hvalid = true → zeroOrNormal (entry s.hist c i)) ∧ (s.cvalid = true → zeroOrNormal (entry s.cdf c i)) ∧
      (s.rvalid = true → zeroOrNormal (entry s.ref c i))

/-- 40_histogram.md R103. For every pixel count a zero count gives +0, and a count equal to the pixel count gives
exactly 1.0. -/
def Obligations.QuotientExtremes : Prop :=
  ∀ n : Nat, 1 ≤ n → n < 2 ^ 32 →
    binary32.div (binary32.ofNat 0) (binary32.ofNat n) = 0x00000000 ∧
      binary32.div (binary32.ofNat n) (binary32.ofNat n) = 0x3F800000

/-- 00_scope.md R10. `NUM.ofNat` is exact for every integer with at most 24 significant bits (a unit is 2^-149). -/
def Obligations.OfNatIsExact : Prop :=
  ∀ m j : Nat, m ≤ 2 ^ 24 → m * 2 ^ j < 2 ^ 32 →
    f32Units (binary32.ofNat (m * 2 ^ j)) = (m : Int) * 2 ^ j * 2 ^ 149

/-- 00_scope.md R9, R11. The rounding function gives a nearest number: where the result is finite, no finite binary32
magnitude is nearer to the exact ratio `n / d`. -/
def Obligations.RoundingIsNearest : Prop :=
  ∀ (n d : Nat) (x : F32), 0 < d → f32Round n d < 0x7F800000 → f32IsInf x = false → f32IsNaN x = false →
    |(f32Mag (f32Pack false (f32Round n d)) : Int) * d - n| ≤ |(f32Mag x : Int) * d - n|

/-- 41_cdf_reference.md R111 (d). Under the invariant of the block, the final bin of each channel of a valid `C` is
within 2^-15 of 1 (in units of 2^-149: within 2^134 of 2^149). -/
def Obligations.FinalCdfBinIsNearOne : Prop :=
  ∀ s : State, BlockInv s → s.cvalid = true → ∀ c : Fin 3, |f32Units (entry s.cdf c 255) - 2 ^ 149| < 2 ^ 134

/-- 45_host_sequences.md R144. What `HIST`, `CDF`, `LUTGEN` make of a frame depends on its bytes, its dimensions and
the Reference alone: two blocks that agree on these, whatever else they hold, end with the same LUT. -/
def Obligations.LutDependsOnFrameAndReference : Prop :=
  ∀ s s' : State, s.rvalid = true → s'.rvalid = true → s.ref = s'.ref → s.width = s'.width → s.height = s'.height →
    (∀ k, k < 3 * (s.width.toNat * s.height.toNat) → s.mem.read (s.src.toNat + k) = s'.mem.read (s'.src.toNat + k)) →
    s.width.toNat * s.height.toNat ≠ 0 → firstError .hist s = 0 → firstError .hist s' = 0 →
    OnPlainMemory .hist s → OnPlainMemory .hist s' →
    ∃ t u v t' u' v', exec .hist s = .next t ∧ exec .cdf t = .next u ∧ exec .lutgen u = .next v ∧
      exec .hist s' = .next t' ∧ exec .cdf t' = .next u' ∧ exec .lutgen u' = .next v' ∧
      v.err = 0 ∧ v'.err = 0 ∧ v.lut = v'.lut
end

