-- ==== Sys2Proof/Laws/Binary32.lean ====
section
/-! SUPPORT. The rounding function by its significand and shift, and the magnitude of the pattern it makes. -/

namespace Sys2Proof.Machine

/-- The magnitude of a pattern of 31 bits, in units of 2^-149. -/
def magPat (p : Nat) : Nat :=
  if p / 2 ^ 23 = 0 then p % 2 ^ 23 else (2 ^ 23 + p % 2 ^ 23) * 2 ^ (p / 2 ^ 23 - 1)

theorem f32Mag_eq_magPat (x : F32) : f32Mag x = magPat (x.toNat % 2 ^ 31) := by
  have h1 : x.toNat % 2 ^ 31 / 2 ^ 23 = x.toNat / 2 ^ 23 % 2 ^ 8 := by omega
  have h2 : x.toNat % 2 ^ 31 % 2 ^ 23 = x.toNat % 2 ^ 23 := by omega
  unfold f32Mag magPat f32Exp f32Frac
  rw [h1, h2]

theorem toNat_f32Pack (neg : Bool) {p : Nat} (hp : p < 2 ^ 31) :
    (f32Pack neg p).toNat = (if neg then 2 ^ 31 else 0) + p := by
  rw [f32Pack, BitVec.toNat_ofNat]
  apply Nat.mod_eq_of_lt
  split <;> omega

theorem f32Mag_pack (neg : Bool) {p : Nat} (hp : p < 2 ^ 31) : f32Mag (f32Pack neg p) = magPat p := by
  rw [f32Mag_eq_magPat, toNat_f32Pack neg hp]
  congr 1
  split <;> omega

theorem f32Neg_pack (neg : Bool) {p : Nat} (hp : p < 2 ^ 31) : f32Neg (f32Pack neg p) = neg := by
  rw [f32Neg, toNat_f32Pack neg hp]
  cases neg
  · simp only [Bool.false_eq_true, if_false, decide_eq_false_iff_not]
    omega
  · simp

/-- A significand of at most 24 bits, shifted, and its pattern; a full `2 ^ 24` carries into the exponent. -/
theorem magPat_significand {m k : Nat} (hm : m ≤ 2 ^ 24) (hk : k = 0 ∨ 2 ^ 23 ≤ m) :
    magPat (m + k * 2 ^ 23) = m * 2 ^ k := by
  unfold magPat
  by_cases hsmall : m < 2 ^ 23
  · obtain rfl : k = 0 := by omega
    have h1 : (m + 0 * 2 ^ 23) / 2 ^ 23 = 0 := by omega
    rw [if_pos h1]
    omega
  · by_cases hfull : m = 2 ^ 24
    · subst hfull
      have h1 : (2 ^ 24 + k * 2 ^ 23) / 2 ^ 23 = k + 2 := by omega
      have h2 : (2 ^ 24 + k * 2 ^ 23) % 2 ^ 23 = 0 := by omega
      rw [h1, h2, if_neg (by omega), show k + 2 - 1 = k + 1 by omega, pow_succ]
      ring
    · have h1 : (m + k * 2 ^ 23) / 2 ^ 23 = k + 1 := by omega
      have h2 : (m + k * 2 ^ 23) % 2 ^ 23 = m - 2 ^ 23 := by omega
      rw [h1, h2, if_neg (by omega), show 2 ^ 23 + (m - 2 ^ 23) = m by omega, show k + 1 - 1 = k by omega]

/-- Every pattern is a significand and a shift. -/
theorem magPat_cases (p : Nat) :
    ∃ m k, m < 2 ^ 24 ∧ (k = 0 ∨ 2 ^ 23 ≤ m) ∧ p = m + k * 2 ^ 23 ∧ magPat p = m * 2 ^ k := by
  by_cases h : p / 2 ^ 23 = 0
  · refine ⟨p, 0, by omega, Or.inl rfl, by omega, ?_⟩
    rw [magPat, if_pos h]
    omega
  · refine ⟨2 ^ 23 + p % 2 ^ 23, p / 2 ^ 23 - 1, by omega, Or.inr (by omega), by omega, ?_⟩
    rw [magPat, if_neg h]

theorem roundHalfEven_cases (n u : Nat) : roundHalfEven n u = n / u ∨ roundHalfEven n u = n / u + 1 := by
  unfold roundHalfEven
  split
  · exact Or.inr rfl
  · exact Or.inl rfl

/-- The rounded quotient is within half a unit. -/
theorem roundHalfEven_near (n : Nat) {u : Nat} (hu : 0 < u) :
    |2 * ((roundHalfEven n u : Int) * u - n)| ≤ u := by
  have hdiv : u * (n / u) + n % u = n := Nat.div_add_mod n u
  have hmod : n % u < u := Nat.mod_lt n hu
  unfold roundHalfEven
  generalize hq : n / u = q at *
  generalize hr : n % u = r at *
  subst hdiv
  split
  · next h =>
    have : u ≤ 2 * r := by omega
    push_cast
    rw [abs_le]
    constructor <;> nlinarith
  · next h =>
    have : 2 * r ≤ u := by omega
    push_cast
    rw [abs_le]
    constructor <;> nlinarith

/-- The quotient in shifted units has at most 24 bits, and all 24 when it is shifted. -/
theorem quotient_bits (n d : Nat) :
    n / (d * 2 ^ f32Shift (n / d)) < 2 ^ 24 ∧
      (f32Shift (n / d) = 0 ∨ 2 ^ 23 ≤ n / (d * 2 ^ f32Shift (n / d))) := by
  rw [← Nat.div_div_eq_div_mul]
  generalize n / d = q
  unfold f32Shift
  split
  · next h => exact ⟨by simpa using h, Or.inl rfl⟩
  · next h =>
    have hq : q ≠ 0 := by omega
    have hlog : 24 ≤ q.log2 := (Nat.le_log2 hq).mpr (by omega)
    have hlo : 2 ^ q.log2 ≤ q := Nat.log2_self_le hq
    have hhi : q < 2 ^ (q.log2 + 1) := Nat.lt_log2_self
    have hsplit : 2 ^ q.log2 = 2 ^ 23 * 2 ^ (q.log2 - 23) := by rw [← pow_add]; congr 1; omega
    have hsplit' : 2 ^ (q.log2 + 1) = 2 ^ 24 * 2 ^ (q.log2 - 23) := by rw [← pow_add]; congr 1; omega
    refine ⟨(Nat.div_lt_iff_lt_mul (by positivity)).mpr (by omega), Or.inr ?_⟩
    exact (Nat.le_div_iff_mul_le (by positivity)).mpr (by omega)

/-- The significand that rounding makes. -/
theorem significand_bits (n d : Nat) :
    roundHalfEven n (d * 2 ^ f32Shift (n / d)) ≤ 2 ^ 24 ∧
      (f32Shift (n / d) = 0 ∨ 2 ^ 23 ≤ roundHalfEven n (d * 2 ^ f32Shift (n / d))) := by
  obtain ⟨h1, h2⟩ := quotient_bits n d
  rcases roundHalfEven_cases n (d * 2 ^ f32Shift (n / d)) with h | h <;> omega

/-- The magnitude of a finite result: the rounded significand, shifted back. -/
theorem magPat_f32Round {n d : Nat} (hfin : f32Round n d < 0x7F800000) :
    magPat (f32Round n d) = roundHalfEven n (d * 2 ^ f32Shift (n / d)) * 2 ^ f32Shift (n / d) := by
  obtain ⟨h1, h2⟩ := significand_bits n d
  have : f32Round n d = roundHalfEven n (d * 2 ^ f32Shift (n / d)) + f32Shift (n / d) * 2 ^ 23 := by
    unfold f32Round at hfin ⊢
    omega
  rw [this]
  exact magPat_significand h1 h2

/-- A finite result is within half of its own last place of the exact ratio (00_scope.md R11). -/
theorem magPat_f32Round_near {n d : Nat} (hd : 0 < d) (hfin : f32Round n d < 0x7F800000) :
    |2 * ((magPat (f32Round n d) : Int) * d - n)| ≤ d * 2 ^ f32Shift (n / d) := by
  have h := roundHalfEven_near n (u := d * 2 ^ f32Shift (n / d)) (by positivity)
  rw [magPat_f32Round hfin]
  push_cast at h ⊢
  rw [mul_comm (d : Int)] at h ⊢
  rwa [← mul_assoc] at h

/-- The last place of a magnitude below `2 ^ (k + 24)` units is at most `2 ^ k` units. -/
theorem f32Shift_le {q k : Nat} (h : q < 2 ^ (k + 24)) : f32Shift q ≤ k := by
  unfold f32Shift
  split
  · exact Nat.zero_le k
  · next hq =>
    have : q.log2 < k + 24 := (Nat.log2_lt (by omega)).mpr h
    omega

theorem f32Round_le (n d : Nat) : f32Round n d ≤ 0x7F800000 := Nat.min_le_right _ _

end Sys2Proof.Machine
end

