-- ==== Sys2Proof/Laws/Table.lean ====
section
/-! SUPPORT. Reading a table that a function or an update has made. -/

namespace Sys2Proof.Machine

variable {α : Type}

@[simp] theorem vectorOfFn_get {n : Nat} (f : Fin n → α) (i : Fin n) : (vectorOfFn f)[i] = f i := by
  simp [vectorOfFn]

@[simp] theorem rowOfFn_get (f : Fin 256 → α) (i : Fin 256) : (rowOfFn f)[i] = f i := vectorOfFn_get f i

@[simp] theorem tableOfRows_get (f : Fin 3 → Row α) (c : Fin 3) : (tableOfRows f)[c] = f c := vectorOfFn_get f c

@[simp] theorem entry_tableOfFn (f : Fin 3 → Fin 256 → α) (c : Fin 3) (i : Fin 256) :
    entry (tableOfFn f) c i = f c i := by
  unfold entry tableOfFn
  rw [tableOfRows_get, rowOfFn_get]

theorem entry_tableOfRows (f : Fin 3 → Row α) (c : Fin 3) (i : Fin 256) :
    entry (tableOfRows f) c i = (f c)[i] := by
  unfold entry
  rw [tableOfRows_get]

@[simp] theorem entry_setEntry_same (t : Table α) (c : Fin 3) (i : Fin 256) (v : α) :
    entry (setEntry t c i v) c i = v := by
  simp only [entry, setEntry, Fin.getElem_fin, Vector.getElem_set_self]

theorem entry_setEntry_other (t : Table α) (c c' : Fin 3) (i i' : Fin 256) (v : α) (h : c' ≠ c ∨ i' ≠ i) :
    entry (setEntry t c i v) c' i' = entry t c' i' := by
  by_cases hc : c = c'
  · subst hc
    have hi : i.val ≠ i'.val := fun e => (h.resolve_left fun h => h rfl) (Fin.ext e.symm)
    simp only [entry, setEntry, Fin.getElem_fin, Vector.getElem_set_self, Vector.getElem_set_ne _ _ hi]
  · have : c.val ≠ c'.val := fun e => hc (Fin.ext e)
    simp only [entry, setEntry, Fin.getElem_fin, Vector.getElem_set_ne _ _ this]

/-- An entry after an update, in one equation. -/
theorem entry_setEntry (t : Table α) (c c' : Fin 3) (i i' : Fin 256) (v : α) :
    entry (setEntry t c i v) c' i' = if c' = c ∧ i' = i then v else entry t c' i' := by
  split
  · next h => obtain ⟨rfl, rfl⟩ := h; simp
  · next h => exact entry_setEntry_other t c c' i i' v (not_and_or.mp h)

/-- Two tables with the same entries are equal. -/
theorem table_ext (t u : Table α) (h : ∀ c i, entry t c i = entry u c i) : t = u := by
  apply Vector.ext
  intro c hc
  apply Vector.ext
  intro i hi
  exact h ⟨c, hc⟩ ⟨i, hi⟩

end Sys2Proof.Machine
end

