-- ==== Sys2Proof/Laws/Cdf.lean ====
section
/-! SUPPORT. The entries of a prefix sum: the first is the first, each later one adds one more. -/

namespace Sys2Proof.Machine

variable {V : Type} (F : NumFormat V)

theorem getElem?_runningSums_succ (s : V) (l : List V) (i : Nat) :
    (runningSums F s l)[i + 1]? = ((runningSums F s l)[i]?).bind fun a => (l[i + 1]?).map (F.add a) := by
  induction l generalizing s i with
  | nil => rfl
  | cons h hs ih =>
    cases i with
    | zero => cases hs <;> simp [runningSums]
    | succ i => simpa [runningSums] using ih (F.add s h) i

theorem getElem?_prefixSums_succ (l : List V) (i : Nat) :
    (prefixSums F l)[i + 1]? = ((prefixSums F l)[i]?).bind fun a => (l[i + 1]?).map (F.add a) := by
  cases l with
  | nil => rfl
  | cons h hs =>
    cases i with
    | zero => cases hs <;> simp [prefixSums, runningSums]
    | succ i => simpa [prefixSums] using getElem?_runningSums_succ F h hs i

theorem getElem_prefixSumsVec_zero {n : Nat} (r : Vector V n) (h : 0 < n) : (prefixSumsVec F r)[0] = r[0] := by
  obtain ⟨⟨l⟩, rfl⟩ := r
  cases l with
  | nil => simp at h
  | cons a l => simp [prefixSumsVec, prefixSums]

theorem getElem_prefixSumsVec_succ {n : Nat} (r : Vector V n) (i : Nat) (h : i + 1 < n) :
    (prefixSumsVec F r)[i + 1] = F.add (prefixSumsVec F r)[i] r[i + 1] := by
  obtain ⟨⟨l⟩, rfl⟩ := r
  have hlen : (prefixSums F l).length = l.length := length_prefixSums F l
  have hi : i + 1 < l.length := h
  have := getElem?_prefixSums_succ F l i
  rw [List.getElem?_eq_getElem (by omega), List.getElem?_eq_getElem (by omega), List.getElem?_eq_getElem hi] at this
  simpa [prefixSumsVec] using this

/-- Bin 0 of a CDF is bin 0 of the histogram (41_cdf_reference.md R110). -/
theorem entry_integrate_zero (h : Table V) (c : Fin 3) : entry (integrate F h) c 0 = entry h c 0 := by
  rw [integrate, entry_tableOfRows]
  exact getElem_prefixSumsVec_zero F h[c] (by decide)

/-- Each later bin adds the histogram's bin to the sum so far (41_cdf_reference.md R110). -/
theorem entry_integrate_succ (h : Table V) (c : Fin 3) (i : Nat) (hi : i + 1 < 256) :
    entry (integrate F h) c ⟨i + 1, hi⟩ =
      F.add (entry (integrate F h) c ⟨i, Nat.lt_of_succ_lt hi⟩) (entry h c ⟨i + 1, hi⟩) := by
  rw [integrate, entry_tableOfRows, entry_tableOfRows]
  exact getElem_prefixSumsVec_succ F h[c] i hi

end Sys2Proof.Machine
end

