-- ==== Sys2Proof/Laws/Hist.lean ====
section
/-! SUPPORT. What the count accumulators hold: the number of samples of each value, and their sum. -/

namespace Sys2Proof.Machine

theorem samplesEqual_succ (m : Memory) (base n : Nat) (c : Fin 3) (i : Fin 256) :
    samplesEqual m base (n + 1) c i =
      samplesEqual m base n c i + if n % 3 = c.val ∧ (m.read (base + n)).toNat = i.val then 1 else 0 := by
  simp only [samplesEqual, List.range_succ, List.countP_append, List.countP_cons, List.countP_nil]
  simp

/-- After `n` bytes an accumulator holds the number of samples of its channel and value. -/
theorem entry_countBytes (m : Memory) (r : Span) (n : Nat) (c : Fin 3) (i : Fin 256) :
    entry (countBytes m r n) c i = BitVec.ofNat 32 (samplesEqual m r.base n c i) := by
  induction n with
  | zero => simp [countBytes, zeroTable, samplesEqual]
  | succ n ih =>
    rw [countBytes, countSample, entry_setEntry, samplesEqual_succ]
    have hiff : (c = channelOf n ∧ i = binOf (m.read (r.addr n))) ↔
        (n % 3 = c.val ∧ (m.read (r.base + n)).toNat = i.val) := by
      simp only [channelOf, binOf, Span.addr, Fin.ext_iff, BitVec.toNat]
      constructor <;> rintro ⟨h, h'⟩ <;> exact ⟨h.symm, h'.symm⟩
    by_cases h : c = channelOf n ∧ i = binOf (m.read (r.addr n))
    · rw [if_pos h, if_pos (hiff.mp h), ← h.1, ← h.2, ih]
      apply BitVec.eq_of_toNat_eq
      simp
    · rw [if_neg h, if_neg (fun h' => h (hiff.mpr h')), ih, Nat.add_zero]

theorem toList_eq_ofFn {α : Type} {n : Nat} (v : Vector α n) : v.toList = List.ofFn fun i : Fin n => v[i] := by
  apply List.ext_getElem <;> simp

theorem countTotal_eq_sum (t : Table Word) (c : Fin 3) :
    countTotal t c = ∑ i : Fin 256, (entry t c i).toNat := by
  rw [countTotal, toList_eq_ofFn, List.map_ofFn, List.sum_ofFn]
  rfl

theorem sum_indicator {β : Type} [Fintype β] [DecidableEq β] (j : β) :
    ∑ i : β, (if i = j then 1 else 0) = 1 := by simp

/-- The samples of one channel, over all values, are the bytes of that channel. -/
theorem sum_samplesEqual (m : Memory) (base n : Nat) (c : Fin 3) :
    ∑ i : Fin 256, samplesEqual m base n c i = (List.range n).countP fun k => k % 3 == c.val := by
  induction n with
  | zero => exact Finset.sum_eq_zero fun _ _ => rfl
  | succ n ih =>
    have hs : (fun i => samplesEqual m base (n + 1) c i) = fun i => samplesEqual m base n c i +
        if n % 3 = c.val ∧ (m.read (base + n)).toNat = i.val then 1 else 0 :=
      funext fun i => samplesEqual_succ m base n c i
    rw [hs]
    rw [Finset.sum_add_distrib]
    rw [ih]
    rw [List.range_succ]
    rw [List.countP_append]
    apply congrArg
    by_cases h : n % 3 = c.val
    · have hiff : ∀ i : Fin 256, (n % 3 = c.val ∧ (m.read (base + n)).toNat = i.val) ↔ i = binOf (m.read (base + n)) := by
        intro i
        rw [binOf, Fin.ext_iff]
        exact ⟨fun hi => hi.2.symm, fun hi => ⟨h, hi.symm⟩⟩
      rw [Finset.sum_congr rfl fun i _ => if_congr (hiff i) rfl rfl, sum_indicator]
      rw [List.countP_singleton, if_pos (by rw [h]; exact beq_self_eq_true _)]
    · rw [Finset.sum_eq_zero fun i _ => if_neg fun hi => h hi.1, List.countP_singleton,
        if_neg (by rw [beq_iff_eq]; exact h)]

/-- Of the `3 * n` bytes of a frame, `n` belong to each channel. -/
theorem countP_channel (n : Nat) (c : Fin 3) : ((List.range (3 * n)).countP fun k => k % 3 == c.val) = n := by
  induction n with
  | zero => simp
  | succ n ih =>
    rw [show 3 * (n + 1) = 3 * n + 1 + 1 + 1 by ring]
    simp only [List.range_succ, List.countP_append, ih, List.countP_cons, List.countP_nil]
    have h0 : 3 * n % 3 = 0 := by omega
    have h1 : (3 * n + 1) % 3 = 1 := by omega
    have h2 : (3 * n + 1 + 1) % 3 = 2 := by omega
    simp only [h0, h1, h2]
    match c with
    | 0 => simp
    | 1 => simp
    | 2 => simp

theorem samplesEqual_le (m : Memory) (base n : Nat) (c : Fin 3) (i : Fin 256) :
    samplesEqual m base (3 * n) c i ≤ n := by
  calc samplesEqual m base (3 * n) c i ≤ ∑ j : Fin 256, samplesEqual m base (3 * n) c j :=
        Finset.single_le_sum (f := fun j => samplesEqual m base (3 * n) c j) (fun _ _ => Nat.zero_le _) (Finset.mem_univ i)
    _ = n := by rw [sum_samplesEqual, countP_channel]

/-- No accumulator overflows: it holds the exact number of samples. -/
theorem toNat_entry_countBytes (m : Memory) (r : Span) {n : Nat} (hn : n < 2 ^ 32) (c : Fin 3) (i : Fin 256) :
    (entry (countBytes m r (3 * n)) c i).toNat = samplesEqual m r.base (3 * n) c i := by
  rw [entry_countBytes, BitVec.toNat_ofNat]
  exact Nat.mod_eq_of_lt (lt_of_le_of_lt (samplesEqual_le m r.base n c i) hn)

/-- The counts of each channel sum to the pixel count (40_histogram.md R102). -/
theorem countTotal_countBytes (m : Memory) (r : Span) {n : Nat} (hn : n < 2 ^ 32) (c : Fin 3) :
    countTotal (countBytes m r (3 * n)) c = n := by
  rw [countTotal_eq_sum]
  simp only [toNat_entry_countBytes m r hn]
  rw [sum_samplesEqual, countP_channel]

/-- A pixel count fits in 32 bits (00_scope.md R7). -/
theorem pixelCount_lt (s : State) : pixelCount s < 2 ^ 32 := by
  have h1 : s.width.toNat < 2 ^ 16 := s.width.isLt
  have h2 : s.height.toNat < 2 ^ 16 := s.height.isLt
  unfold pixelCount
  calc s.width.toNat * s.height.toNat ≤ (2 ^ 16 - 1) * (2 ^ 16 - 1) := Nat.mul_le_mul (by omega) (by omega)
    _ < 2 ^ 32 := by norm_num

@[simp] theorem entry_normalise {V : Type} (F : NumFormat V) (cnt : Table Word) (n : Nat) (c : Fin 3) (i : Fin 256) :
    entry (normalise F cnt n) c i = F.div (F.ofNat (entry cnt c i).toNat) (F.ofNat n) := by
  simp [normalise]

end Sys2Proof.Machine
end

