-- ==== Sys2Proof/Laws/Lut.lean ====
section
/-! SUPPORT. What the cursor loop and the sweep do, for every number format. -/

namespace Sys2Proof.Machine

variable {V : Type} (F : NumFormat V)

/-- The cursor never moves back. -/
theorem le_advanceCursor (ref : Row V) (t : V) (fuel : Nat) (cur : Fin 256) :
    cur.val ≤ (advanceCursor F ref t fuel cur).val := by
  induction fuel generalizing cur with
  | zero => exact le_refl _
  | succ fuel ih =>
    unfold advanceCursor
    split
    · next h =>
      split
      · exact le_trans (Nat.le_succ cur.val) (ih ⟨cur.val + 1, Nat.succ_lt_succ h⟩)
      · exact le_refl _
    · exact le_refl _

/-- Every reference bin the cursor passes lies below the threshold. -/
theorem lt_of_passed (ref : Row V) (t : V) (fuel : Nat) (cur : Fin 256) (j : Fin 256)
    (h : cur.val ≤ j.val) (h' : j.val < (advanceCursor F ref t fuel cur).val) : F.lt ref[j] t = true := by
  induction fuel generalizing cur with
  | zero => exact absurd h' (not_lt.mpr h)
  | succ fuel ih =>
    unfold advanceCursor at h'
    split at h'
    · next hmax =>
      split at h'
      · next hlt =>
        rcases Nat.eq_or_lt_of_le h with he | hlt'
        · rw [← Fin.ext he]; exact hlt
        · exact ih ⟨cur.val + 1, Nat.succ_lt_succ hmax⟩ hlt' h'
      · exact absurd h' (not_lt.mpr h)
    · exact absurd h' (not_lt.mpr h)

/-- With enough fuel the cursor stops at 255 or at a bin that is not below the threshold. -/
theorem advanceCursor_stops (ref : Row V) (t : V) (fuel : Nat) (cur : Fin 256) (h : 255 ≤ cur.val + fuel) :
    (advanceCursor F ref t fuel cur).val = 255 ∨ F.lt ref[advanceCursor F ref t fuel cur] t = false := by
  induction fuel generalizing cur with
  | zero => exact Or.inl (by have := cur.isLt; simp only [advanceCursor]; omega)
  | succ fuel ih =>
    unfold advanceCursor
    split
    · next hmax =>
      split
      · exact ih ⟨cur.val + 1, Nat.succ_lt_succ hmax⟩ (by simp only; omega)
      · next hlt => exact Or.inr (by simpa using hlt)
    · next hcur => exact Or.inl (by have := cur.isLt; simp only [Config.curMax] at hcur; omega)

/-- The cursor after the first `n` source values of a sweep. -/
def cursorAt (ref : Row V) (cur : Fin 256) (l : List V) : Nat → Fin 256
  | 0 => cur
  | n + 1 => match l with
    | [] => cur
    | x :: xs => cursorAt ref (cursorAfter F ref cur x) xs n

theorem cursorAt_zero (ref : Row V) (cur : Fin 256) (l : List V) : cursorAt F ref cur l 0 = cur := by
  cases l <;> rfl

theorem cursorAt_succ (ref : Row V) (cur : Fin 256) (l : List V) (n : Nat) (h : n < l.length) :
    cursorAt F ref cur l (n + 1) = cursorAfter F ref (cursorAt F ref cur l n) l[n] := by
  induction l generalizing cur n with
  | nil => exact absurd h (Nat.not_lt_zero n)
  | cons x xs ih =>
    cases n with
    | zero => cases xs <;> rfl
    | succ n => exact ih (cursorAfter F ref cur x) n (Nat.lt_of_succ_lt_succ h)

theorem getElem_lutSweep (ref : Row V) (cur : Fin 256) (l : List V) (n : Nat) (h : n < (lutSweep F ref cur l).length) :
    (lutSweep F ref cur l)[n] = lutEntry (cursorAt F ref cur l (n + 1)) := by
  induction l generalizing cur n with
  | nil => exact absurd h (Nat.not_lt_zero n)
  | cons x xs ih =>
    cases n with
    | zero => cases xs <;> rfl
    | succ n =>
      simp only [lutSweep, List.length_cons] at h
      exact ih (cursorAfter F ref cur x) n (by omega)

theorem cursorAt_mono (ref : Row V) (cur : Fin 256) (l : List V) (n : Nat) :
    (cursorAt F ref cur l n).val ≤ (cursorAt F ref cur l (n + 1)).val := by
  induction l generalizing cur n with
  | nil => cases n <;> exact le_refl _
  | cons x xs ih =>
    cases n with
    | zero => cases xs <;> exact le_advanceCursor F ref _ _ cur
    | succ n => exact ih _ n

theorem one_le_cursorAt (ref : Row V) (l : List V) (n : Nat) : 1 ≤ (cursorAt F ref 1 l n).val := by
  induction n with
  | zero => rw [cursorAt_zero]; decide
  | succ n ih => exact le_trans ih (cursorAt_mono F ref 1 l n)

theorem toNat_lutEntry (cur : Fin 256) : (lutEntry cur).toNat = cur.val - 1 := by
  have := cur.isLt
  rw [lutEntry, BitVec.toNat_ofNat]
  exact Nat.mod_eq_of_lt (by omega)

theorem getElem_lutVec {n : Nat} (ref : Row V) (src : Vector V n) (b : Nat) (h : b < n) :
    (lutVec F ref src)[b] = lutEntry (cursorAt F ref 1 src.toList (b + 1)) := by
  have : b < (lutSweep F ref 1 src.toList).length := by simpa [length_lutSweep] using h
  simpa [lutVec] using getElem_lutSweep F ref 1 src.toList b this

/-- A LUT entry is the cursor after its source bin, less one (42_lut.md R120). -/
theorem entry_buildLut (ref src : Table V) (c : Fin 3) (b : Fin 256) :
    entry (buildLut F ref src) c b = lutEntry (cursorAt F ref[c] 1 src[c].toList (b.val + 1)) := by
  rw [buildLut, entry_tableOfRows]
  exact getElem_lutVec F ref[c] src[c] b.val b.isLt

/-- The cursor moves over source bin `b` by the loop of 42_lut.md R120. -/
theorem cursorAt_step (ref src : Table V) (c : Fin 3) (b : Fin 256) :
    cursorAt F ref[c] 1 src[c].toList (b.val + 1) =
      cursorAfter F ref[c] (cursorAt F ref[c] 1 src[c].toList b.val) (entry src c b) := by
  have hb : b.val < src[c].toList.length := by rw [Vector.length_toList]; exact b.isLt
  rw [cursorAt_succ F ref[c] 1 src[c].toList b.val hb, Vector.getElem_toList]
  rfl

end Sys2Proof.Machine
end

