-- ==== Sys2Proof/Laws/State.lean ====
section
/-! SUPPORT. One lemma per field per shared update of the state, so that no later proof unfolds a record update. -/

namespace Sys2Proof.Machine

@[simp] theorem raise_src (k : ErrKind) (s : State) : (raise k s).src = s.src := rfl
@[simp] theorem raise_dst (k : ErrKind) (s : State) : (raise k s).dst = s.dst := rfl
@[simp] theorem raise_width (k : ErrKind) (s : State) : (raise k s).width = s.width := rfl
@[simp] theorem raise_height (k : ErrKind) (s : State) : (raise k s).height = s.height := rfl
@[simp] theorem raise_npix (k : ErrKind) (s : State) : (raise k s).npix = s.npix := rfl
@[simp] theorem raise_err (k : ErrKind) (s : State) : (raise k s).err = k.code := rfl
@[simp] theorem raise_hvalid (k : ErrKind) (s : State) : (raise k s).hvalid = s.hvalid := rfl
@[simp] theorem raise_cvalid (k : ErrKind) (s : State) : (raise k s).cvalid = s.cvalid := rfl
@[simp] theorem raise_rvalid (k : ErrKind) (s : State) : (raise k s).rvalid = s.rvalid := rfl
@[simp] theorem raise_errlog (k : ErrKind) (s : State) : (raise k s).errlog = errlogSet s.errlog k := rfl
@[simp] theorem raise_cnt (k : ErrKind) (s : State) : (raise k s).cnt = s.cnt := rfl
@[simp] theorem raise_hist (k : ErrKind) (s : State) : (raise k s).hist = s.hist := rfl
@[simp] theorem raise_cdf (k : ErrKind) (s : State) : (raise k s).cdf = s.cdf := rfl
@[simp] theorem raise_ref (k : ErrKind) (s : State) : (raise k s).ref = s.ref := rfl
@[simp] theorem raise_lut (k : ErrKind) (s : State) : (raise k s).lut = s.lut := rfl
@[simp] theorem raise_mem (k : ErrKind) (s : State) : (raise k s).mem = s.mem := rfl
@[simp] theorem raise_running (k : ErrKind) (s : State) : (raise k s).running = none := rfl
@[simp] theorem raise_progress (k : ErrKind) (s : State) : (raise k s).progress = 0 := rfl
@[simp] theorem raise_held (k : ErrKind) (s : State) : (raise k s).held = s.held := rfl
@[simp] theorem raise_inbox (k : ErrKind) (s : State) : (raise k s).inbox = s.inbox := rfl
@[simp] theorem raise_replies (k : ErrKind) (s : State) : (raise k s).replies = s.replies := rfl
@[simp] theorem raise_platform (k : ErrKind) (s : State) : (raise k s).platform = s.platform := rfl
@[simp] theorem raise_draws (k : ErrKind) (s : State) : (raise k s).draws = s.draws := rfl

@[simp] theorem finish_src (s : State) : (finish s).src = s.src := rfl
@[simp] theorem finish_dst (s : State) : (finish s).dst = s.dst := rfl
@[simp] theorem finish_width (s : State) : (finish s).width = s.width := rfl
@[simp] theorem finish_height (s : State) : (finish s).height = s.height := rfl
@[simp] theorem finish_npix (s : State) : (finish s).npix = s.npix := rfl
@[simp] theorem finish_err (s : State) : (finish s).err = 0 := rfl
@[simp] theorem finish_hvalid (s : State) : (finish s).hvalid = s.hvalid := rfl
@[simp] theorem finish_cvalid (s : State) : (finish s).cvalid = s.cvalid := rfl
@[simp] theorem finish_rvalid (s : State) : (finish s).rvalid = s.rvalid := rfl
@[simp] theorem finish_errlog (s : State) : (finish s).errlog = s.errlog := rfl
@[simp] theorem finish_cnt (s : State) : (finish s).cnt = s.cnt := rfl
@[simp] theorem finish_hist (s : State) : (finish s).hist = s.hist := rfl
@[simp] theorem finish_cdf (s : State) : (finish s).cdf = s.cdf := rfl
@[simp] theorem finish_ref (s : State) : (finish s).ref = s.ref := rfl
@[simp] theorem finish_lut (s : State) : (finish s).lut = s.lut := rfl
@[simp] theorem finish_mem (s : State) : (finish s).mem = s.mem := rfl
@[simp] theorem finish_running (s : State) : (finish s).running = none := rfl
@[simp] theorem finish_progress (s : State) : (finish s).progress = 0 := rfl
@[simp] theorem finish_held (s : State) : (finish s).held = s.held := rfl
@[simp] theorem finish_inbox (s : State) : (finish s).inbox = s.inbox := rfl
@[simp] theorem finish_replies (s : State) : (finish s).replies = s.replies := rfl
@[simp] theorem finish_platform (s : State) : (finish s).platform = s.platform := rfl
@[simp] theorem finish_draws (s : State) : (finish s).draws = s.draws := rfl

@[simp] theorem hang_src (i : Instr) (s : State) : (hang i s).src = s.src := rfl
@[simp] theorem hang_dst (i : Instr) (s : State) : (hang i s).dst = s.dst := rfl
@[simp] theorem hang_width (i : Instr) (s : State) : (hang i s).width = s.width := rfl
@[simp] theorem hang_height (i : Instr) (s : State) : (hang i s).height = s.height := rfl
@[simp] theorem hang_npix (i : Instr) (s : State) : (hang i s).npix = s.npix := rfl
@[simp] theorem hang_err (i : Instr) (s : State) : (hang i s).err = s.err := rfl
@[simp] theorem hang_hvalid (i : Instr) (s : State) : (hang i s).hvalid = s.hvalid := rfl
@[simp] theorem hang_cvalid (i : Instr) (s : State) : (hang i s).cvalid = s.cvalid := rfl
@[simp] theorem hang_rvalid (i : Instr) (s : State) : (hang i s).rvalid = s.rvalid := rfl
@[simp] theorem hang_errlog (i : Instr) (s : State) : (hang i s).errlog = s.errlog := rfl
@[simp] theorem hang_cnt (i : Instr) (s : State) : (hang i s).cnt = s.cnt := rfl
@[simp] theorem hang_hist (i : Instr) (s : State) : (hang i s).hist = s.hist := rfl
@[simp] theorem hang_cdf (i : Instr) (s : State) : (hang i s).cdf = s.cdf := rfl
@[simp] theorem hang_ref (i : Instr) (s : State) : (hang i s).ref = s.ref := rfl
@[simp] theorem hang_lut (i : Instr) (s : State) : (hang i s).lut = s.lut := rfl
@[simp] theorem hang_mem (i : Instr) (s : State) : (hang i s).mem = s.mem := rfl
@[simp] theorem hang_running (i : Instr) (s : State) : (hang i s).running = some (encode i) := rfl
@[simp] theorem hang_progress (i : Instr) (s : State) : (hang i s).progress = s.progress := rfl
@[simp] theorem hang_held (i : Instr) (s : State) : (hang i s).held = s.held := rfl
@[simp] theorem hang_inbox (i : Instr) (s : State) : (hang i s).inbox = s.inbox := rfl
@[simp] theorem hang_replies (i : Instr) (s : State) : (hang i s).replies = s.replies := rfl
@[simp] theorem hang_platform (i : Instr) (s : State) : (hang i s).platform = s.platform := rfl
@[simp] theorem hang_draws (i : Instr) (s : State) : (hang i s).draws = s.draws := rfl

@[simp] theorem clearFrameFlags_src (s : State) : (clearFrameFlags s).src = s.src := rfl
@[simp] theorem clearFrameFlags_dst (s : State) : (clearFrameFlags s).dst = s.dst := rfl
@[simp] theorem clearFrameFlags_width (s : State) : (clearFrameFlags s).width = s.width := rfl
@[simp] theorem clearFrameFlags_height (s : State) : (clearFrameFlags s).height = s.height := rfl
@[simp] theorem clearFrameFlags_npix (s : State) : (clearFrameFlags s).npix = s.npix := rfl
@[simp] theorem clearFrameFlags_err (s : State) : (clearFrameFlags s).err = s.err := rfl
@[simp] theorem clearFrameFlags_hvalid (s : State) : (clearFrameFlags s).hvalid = false := rfl
@[simp] theorem clearFrameFlags_cvalid (s : State) : (clearFrameFlags s).cvalid = false := rfl
@[simp] theorem clearFrameFlags_rvalid (s : State) : (clearFrameFlags s).rvalid = s.rvalid := rfl
@[simp] theorem clearFrameFlags_errlog (s : State) : (clearFrameFlags s).errlog = s.errlog := rfl
@[simp] theorem clearFrameFlags_cnt (s : State) : (clearFrameFlags s).cnt = s.cnt := rfl
@[simp] theorem clearFrameFlags_hist (s : State) : (clearFrameFlags s).hist = s.hist := rfl
@[simp] theorem clearFrameFlags_cdf (s : State) : (clearFrameFlags s).cdf = s.cdf := rfl
@[simp] theorem clearFrameFlags_ref (s : State) : (clearFrameFlags s).ref = s.ref := rfl
@[simp] theorem clearFrameFlags_lut (s : State) : (clearFrameFlags s).lut = s.lut := rfl
@[simp] theorem clearFrameFlags_mem (s : State) : (clearFrameFlags s).mem = s.mem := rfl
@[simp] theorem clearFrameFlags_running (s : State) : (clearFrameFlags s).running = s.running := rfl
@[simp] theorem clearFrameFlags_progress (s : State) : (clearFrameFlags s).progress = s.progress := rfl
@[simp] theorem clearFrameFlags_held (s : State) : (clearFrameFlags s).held = s.held := rfl
@[simp] theorem clearFrameFlags_inbox (s : State) : (clearFrameFlags s).inbox = s.inbox := rfl
@[simp] theorem clearFrameFlags_replies (s : State) : (clearFrameFlags s).replies = s.replies := rfl
@[simp] theorem clearFrameFlags_platform (s : State) : (clearFrameFlags s).platform = s.platform := rfl
@[simp] theorem clearFrameFlags_draws (s : State) : (clearFrameFlags s).draws = s.draws := rfl

@[simp] theorem answer_src (r : Reply) (s : State) : (answer r s).src = s.src := rfl
@[simp] theorem answer_dst (r : Reply) (s : State) : (answer r s).dst = s.dst := rfl
@[simp] theorem answer_width (r : Reply) (s : State) : (answer r s).width = s.width := rfl
@[simp] theorem answer_height (r : Reply) (s : State) : (answer r s).height = s.height := rfl
@[simp] theorem answer_npix (r : Reply) (s : State) : (answer r s).npix = s.npix := rfl
@[simp] theorem answer_err (r : Reply) (s : State) : (answer r s).err = s.err := rfl
@[simp] theorem answer_hvalid (r : Reply) (s : State) : (answer r s).hvalid = s.hvalid := rfl
@[simp] theorem answer_cvalid (r : Reply) (s : State) : (answer r s).cvalid = s.cvalid := rfl
@[simp] theorem answer_rvalid (r : Reply) (s : State) : (answer r s).rvalid = s.rvalid := rfl
@[simp] theorem answer_errlog (r : Reply) (s : State) : (answer r s).errlog = s.errlog := rfl
@[simp] theorem answer_cnt (r : Reply) (s : State) : (answer r s).cnt = s.cnt := rfl
@[simp] theorem answer_hist (r : Reply) (s : State) : (answer r s).hist = s.hist := rfl
@[simp] theorem answer_cdf (r : Reply) (s : State) : (answer r s).cdf = s.cdf := rfl
@[simp] theorem answer_ref (r : Reply) (s : State) : (answer r s).ref = s.ref := rfl
@[simp] theorem answer_lut (r : Reply) (s : State) : (answer r s).lut = s.lut := rfl
@[simp] theorem answer_mem (r : Reply) (s : State) : (answer r s).mem = s.mem := rfl
@[simp] theorem answer_running (r : Reply) (s : State) : (answer r s).running = s.running := rfl
@[simp] theorem answer_progress (r : Reply) (s : State) : (answer r s).progress = s.progress := rfl
@[simp] theorem answer_held (r : Reply) (s : State) : (answer r s).held = s.held := rfl
@[simp] theorem answer_inbox (r : Reply) (s : State) : (answer r s).inbox = s.inbox := rfl
@[simp] theorem answer_replies (r : Reply) (s : State) : (answer r s).replies = s.replies ++ [r] := rfl
@[simp] theorem answer_platform (r : Reply) (s : State) : (answer r s).platform = s.platform := rfl
@[simp] theorem answer_draws (r : Reply) (s : State) : (answer r s).draws = s.draws := rfl

@[simp] theorem drawn_src (s : State) : (drawn s).src = s.src := rfl
@[simp] theorem drawn_dst (s : State) : (drawn s).dst = s.dst := rfl
@[simp] theorem drawn_width (s : State) : (drawn s).width = s.width := rfl
@[simp] theorem drawn_height (s : State) : (drawn s).height = s.height := rfl
@[simp] theorem drawn_npix (s : State) : (drawn s).npix = s.npix := rfl
@[simp] theorem drawn_err (s : State) : (drawn s).err = s.err := rfl
@[simp] theorem drawn_hvalid (s : State) : (drawn s).hvalid = s.hvalid := rfl
@[simp] theorem drawn_cvalid (s : State) : (drawn s).cvalid = s.cvalid := rfl
@[simp] theorem drawn_rvalid (s : State) : (drawn s).rvalid = s.rvalid := rfl
@[simp] theorem drawn_errlog (s : State) : (drawn s).errlog = s.errlog := rfl
@[simp] theorem drawn_cnt (s : State) : (drawn s).cnt = s.cnt := rfl
@[simp] theorem drawn_hist (s : State) : (drawn s).hist = s.hist := rfl
@[simp] theorem drawn_cdf (s : State) : (drawn s).cdf = s.cdf := rfl
@[simp] theorem drawn_ref (s : State) : (drawn s).ref = s.ref := rfl
@[simp] theorem drawn_lut (s : State) : (drawn s).lut = s.lut := rfl
@[simp] theorem drawn_mem (s : State) : (drawn s).mem = s.mem := rfl
@[simp] theorem drawn_running (s : State) : (drawn s).running = s.running := rfl
@[simp] theorem drawn_progress (s : State) : (drawn s).progress = s.progress := rfl
@[simp] theorem drawn_held (s : State) : (drawn s).held = s.held := rfl
@[simp] theorem drawn_inbox (s : State) : (drawn s).inbox = s.inbox := rfl
@[simp] theorem drawn_replies (s : State) : (drawn s).replies = s.replies := rfl
@[simp] theorem drawn_platform (s : State) : (drawn s).platform = s.platform := rfl
@[simp] theorem drawn_draws (s : State) : (drawn s).draws = s.draws + 1 := rfl

@[simp] theorem taken_src (s : State) : (taken s).src = s.src := rfl
@[simp] theorem taken_dst (s : State) : (taken s).dst = s.dst := rfl
@[simp] theorem taken_width (s : State) : (taken s).width = s.width := rfl
@[simp] theorem taken_height (s : State) : (taken s).height = s.height := rfl
@[simp] theorem taken_npix (s : State) : (taken s).npix = s.npix := rfl
@[simp] theorem taken_err (s : State) : (taken s).err = s.err := rfl
@[simp] theorem taken_hvalid (s : State) : (taken s).hvalid = s.hvalid := rfl
@[simp] theorem taken_cvalid (s : State) : (taken s).cvalid = s.cvalid := rfl
@[simp] theorem taken_rvalid (s : State) : (taken s).rvalid = s.rvalid := rfl
@[simp] theorem taken_errlog (s : State) : (taken s).errlog = s.errlog := rfl
@[simp] theorem taken_cnt (s : State) : (taken s).cnt = s.cnt := rfl
@[simp] theorem taken_hist (s : State) : (taken s).hist = s.hist := rfl
@[simp] theorem taken_cdf (s : State) : (taken s).cdf = s.cdf := rfl
@[simp] theorem taken_ref (s : State) : (taken s).ref = s.ref := rfl
@[simp] theorem taken_lut (s : State) : (taken s).lut = s.lut := rfl
@[simp] theorem taken_mem (s : State) : (taken s).mem = s.mem := rfl
@[simp] theorem taken_running (s : State) : (taken s).running = s.running := rfl
@[simp] theorem taken_progress (s : State) : (taken s).progress = s.progress := rfl
@[simp] theorem taken_held (s : State) : (taken s).held = s.held := rfl
@[simp] theorem taken_inbox (s : State) : (taken s).inbox = s.inbox.tail := rfl
@[simp] theorem taken_replies (s : State) : (taken s).replies = s.replies := rfl
@[simp] theorem taken_platform (s : State) : (taken s).platform = s.platform := rfl
@[simp] theorem taken_draws (s : State) : (taken s).draws = s.draws := rfl

@[simp] theorem resetBlock_src (m : Memory) (s : State) : (resetBlock m s).src = 0 := rfl
@[simp] theorem resetBlock_dst (m : Memory) (s : State) : (resetBlock m s).dst = 0 := rfl
@[simp] theorem resetBlock_width (m : Memory) (s : State) : (resetBlock m s).width = 0 := rfl
@[simp] theorem resetBlock_height (m : Memory) (s : State) : (resetBlock m s).height = 0 := rfl
@[simp] theorem resetBlock_npix (m : Memory) (s : State) : (resetBlock m s).npix = 0 := rfl
@[simp] theorem resetBlock_err (m : Memory) (s : State) : (resetBlock m s).err = 0 := rfl
@[simp] theorem resetBlock_hvalid (m : Memory) (s : State) : (resetBlock m s).hvalid = false := rfl
@[simp] theorem resetBlock_cvalid (m : Memory) (s : State) : (resetBlock m s).cvalid = false := rfl
@[simp] theorem resetBlock_rvalid (m : Memory) (s : State) : (resetBlock m s).rvalid = false := rfl
@[simp] theorem resetBlock_errlog (m : Memory) (s : State) : (resetBlock m s).errlog = 0 := rfl
@[simp] theorem resetBlock_cnt (m : Memory) (s : State) : (resetBlock m s).cnt = zeroTable := rfl
@[simp] theorem resetBlock_hist (m : Memory) (s : State) : (resetBlock m s).hist = zeroTable := rfl
@[simp] theorem resetBlock_cdf (m : Memory) (s : State) : (resetBlock m s).cdf = zeroTable := rfl
@[simp] theorem resetBlock_ref (m : Memory) (s : State) : (resetBlock m s).ref = zeroTable := rfl
@[simp] theorem resetBlock_lut (m : Memory) (s : State) : (resetBlock m s).lut = identityLut := rfl
@[simp] theorem resetBlock_mem (m : Memory) (s : State) : (resetBlock m s).mem = m := rfl
@[simp] theorem resetBlock_running (m : Memory) (s : State) : (resetBlock m s).running = none := rfl
@[simp] theorem resetBlock_progress (m : Memory) (s : State) : (resetBlock m s).progress = 0 := rfl
@[simp] theorem resetBlock_held (m : Memory) (s : State) : (resetBlock m s).held = [] := rfl
@[simp] theorem resetBlock_inbox (m : Memory) (s : State) : (resetBlock m s).inbox = s.inbox := rfl
@[simp] theorem resetBlock_replies (m : Memory) (s : State) : (resetBlock m s).replies = s.replies := rfl
@[simp] theorem resetBlock_platform (m : Memory) (s : State) : (resetBlock m s).platform = s.platform := rfl
@[simp] theorem resetBlock_draws (m : Memory) (s : State) : (resetBlock m s).draws = s.draws := rfl

end Sys2Proof.Machine
end

