-- ==== Sys2Proof/Laws/Xform.lean ====
section
/-! SUPPORT. What the transform loop leaves in frame memory. -/

namespace Sys2Proof.Machine

/-- The source byte at `k` has not been overwritten when byte `k` is reached: the regions are the same or share no
address (43_transform.md R131). -/
def Placed (src dst : Span) : Prop :=
  src.len = dst.len ∧ (src.base = dst.base ∨ src.base + src.len ≤ dst.base ∨ dst.base + dst.len ≤ src.base)

/-- Bytes outside the first `n` destination bytes are unchanged. -/
theorem read_mapBytes_other (lut : Table Byte) (src dst : Span) (m : Memory) (n a : Nat)
    (h : a < dst.base ∨ dst.base + n ≤ a) : (mapBytes lut src dst m n).read a = m.read a := by
  induction n with
  | zero => rfl
  | succ n ih =>
    rw [mapBytes, Memory.read_write_other _ _ _ _ (by simp only [Span.addr]; omega), ih (by omega)]

theorem wf_mapBytes (lut : Table Byte) (src dst : Span) {m : Memory} (hm : m.wf = true) (n : Nat)
    (h : dst.base + n ≤ Config.memSize) : (mapBytes lut src dst m n).wf = true := by
  induction n with
  | zero => exact hm
  | succ n ih => exact Memory.wf_write (ih (by omega)) (by simp only [Span.addr]; omega) _

/-- Destination byte `k` holds the image of the byte that stood at source byte `k` (43_transform.md R132). -/
theorem read_mapBytes (lut : Table Byte) (src dst : Span) {m : Memory} (hm : m.wf = true) (hp : Placed src dst)
    (n : Nat) (hn : n ≤ dst.len) (htop : dst.base + n ≤ Config.memSize) (k : Nat) (hk : k < n) :
    (mapBytes lut src dst m n).read (dst.addr k) = mapSample lut k (m.read (src.addr k)) := by
  induction n with
  | zero => exact absurd hk (Nat.not_lt_zero k)
  | succ n ih =>
    rw [mapBytes]
    rcases Nat.lt_succ_iff_lt_or_eq.mp hk with hlt | rfl
    · rw [Memory.read_write_other _ _ _ _ (by simp only [Span.addr]; omega)]
      exact ih (by omega) (by omega) hlt
    · rw [Memory.read_write_same (wf_mapBytes lut src dst hm k (by omega))]
      congr 1
      obtain ⟨hlen, hplace⟩ := hp
      rw [read_mapBytes_other _ _ _ _ _ _ (by simp only [Span.addr]; omega)]

theorem wf_mapSomeBytes (lut : Table Byte) (src dst : Span) {m : Memory} (hm : m.wf = true) (draw n : Nat)
    (h : dst.base + n ≤ Config.memSize) : (mapSomeBytes lut src dst m draw n).wf = true := by
  induction n with
  | zero => exact hm
  | succ n ih =>
    rw [mapSomeBytes]
    split
    · exact Memory.wf_write (ih (by omega)) (by simp only [Span.addr]; omega) _
    · exact ih (by omega)

theorem read_mapSomeBytes_other (lut : Table Byte) (src dst : Span) (m : Memory) (draw n a : Nat)
    (h : a < dst.base ∨ dst.base + n ≤ a) : (mapSomeBytes lut src dst m draw n).read a = m.read a := by
  induction n with
  | zero => rfl
  | succ n ih =>
    rw [mapSomeBytes]
    split
    · rw [Memory.read_write_other _ _ _ _ (by simp only [Span.addr]; omega), ih (by omega)]
    · exact ih (by omega)

/-- Destination byte `k` of an abandoned transform, by its own free choice (70_reset_and_hazards.md R181). -/
theorem read_mapSomeBytes (lut : Table Byte) (src dst : Span) {m : Memory} (hm : m.wf = true) (draw n : Nat)
    (htop : dst.base + n ≤ Config.memSize) (k : Nat) (hk : k < n) :
    (mapSomeBytes lut src dst m draw n).read (dst.addr k) =
      if Config.freeBit (draw + k) then mapSample lut k (m.read (src.addr k)) else m.read (dst.addr k) := by
  induction n with
  | zero => exact absurd hk (Nat.not_lt_zero k)
  | succ n ih =>
    rw [mapSomeBytes]
    rcases Nat.lt_succ_iff_lt_or_eq.mp hk with hlt | rfl
    · split
      · rw [Memory.read_write_other _ _ _ _ (by simp only [Span.addr]; omega)]
        exact ih (by omega) hlt
      · exact ih (by omega) hlt
    · split
      · rw [Memory.read_write_same (wf_mapSomeBytes lut src dst hm draw k (by omega))]
      · exact read_mapSomeBytes_other _ _ _ _ _ _ _ (by simp only [Span.addr]; omega)

end Sys2Proof.Machine
end

