-- ==== Sys2Proof/Laws/Exec.lean ====
section
/-! SUPPORT. Everything a command can answer: the inversion of each meaning, and of the shared memory access. -/

namespace Sys2Proof.Machine

theorem portReply_nil (platform : List Region) : portReply platform [] = .plain := by
  simp [portReply, meetsKind]

/-- On plain memory a command completes. -/
theorem accessing_plain {i : Instr} {spans : List Span} {begun done : State}
    (h : portReply begun.platform spans = .plain) : accessing i spans begun done = .next done := by
  simp [accessing, h]

/-- A command that reaches memory answers its completed state, hangs, or is refused. -/
theorem accessing_cases {i : Instr} {spans : List Span} {begun done t : State}
    (h : accessing i spans begun done = .next t) :
    (portReply begun.platform spans = .plain ∧ t = done) ∨
      (portReply begun.platform spans = .silent ∧ t = hang i begun) := by
  unfold accessing at h
  split at h
  · next hp => exact Or.inl ⟨hp, by injection h with h; exact h.symm⟩
  · cases h
  · next hp => exact Or.inr ⟨hp, by injection h with h; exact h.symm⟩

/-- `HIST`: one of its two errors, its completion, or a hang (40_histogram.md R100). -/
theorem execHist_cases {s t : State} (h : execHist s = .next t) :
    (pixelCount s = 0 ∧ t = raise .empty (clearFrameFlags s)) ∨
    (pixelCount s ≠ 0 ∧ (srcSpan s).pastTop = true ∧ t = raise .range (clearFrameFlags s)) ∨
    (pixelCount s ≠ 0 ∧ (srcSpan s).pastTop = false ∧ portReply s.platform [srcSpan s] = .plain ∧ t = histDone s) ∨
    (pixelCount s ≠ 0 ∧ (srcSpan s).pastTop = false ∧ portReply s.platform [srcSpan s] = .silent ∧
      t = hang .hist (clearFrameFlags s)) := by
  unfold execHist at h
  split at h
  · next h0 => injection h with h; exact Or.inl ⟨h0, h.symm⟩
  · next h0 =>
    split at h
    · next hr => injection h with h; exact Or.inr (Or.inl ⟨h0, hr, h.symm⟩)
    · next hr =>
      have hr' : (srcSpan s).pastTop = false := by simpa using hr
      rcases accessing_cases h with ⟨hp, ht⟩ | ⟨hp, ht⟩
      · exact Or.inr (Or.inr (Or.inl ⟨h0, hr', hp, ht⟩))
      · exact Or.inr (Or.inr (Or.inr ⟨h0, hr', hp, ht⟩))

/-- `CDF`: its error or its completion (41_cdf_reference.md R110). -/
theorem execCdf_cases {s t : State} (h : execCdf s = .next t) :
    (s.hvalid = false ∧ t = raise .noHist s) ∨ (s.hvalid = true ∧ t = cdfDone s) := by
  unfold execCdf at h
  split at h <;> injection h with h <;> simp_all

/-- `SETREF`: one of its two errors or its completion (41_cdf_reference.md R113). -/
theorem execSetref_cases {s t : State} (h : execSetref s = .next t) :
    (s.cvalid = false ∧ t = raise .noCdf s) ∨
    (s.cvalid = true ∧ s.rvalid = true ∧ t = raise .refLocked s) ∨
    (s.cvalid = true ∧ s.rvalid = false ∧ t = setrefDone s) := by
  unfold execSetref at h
  split at h
  · injection h with h; simp_all
  · split at h <;> injection h with h <;> simp_all

/-- `LUTGEN`: one of its two errors or its completion (42_lut.md R120). -/
theorem execLutgen_cases {s t : State} (h : execLutgen s = .next t) :
    (s.cvalid = false ∧ t = raise .noCdf s) ∨
    (s.cvalid = true ∧ s.rvalid = false ∧ t = raise .noRef s) ∨
    (s.cvalid = true ∧ s.rvalid = true ∧ t = lutgenDone s) := by
  unfold execLutgen at h
  split at h
  · injection h with h; simp_all
  · split at h <;> injection h with h <;> simp_all

/-- `XFORM`: the empty frame, one of its two errors, its completion, or a hang (43_transform.md R130). -/
theorem execXform_cases {s t : State} (h : execXform s = .next t) :
    (pixelCount s = 0 ∧ t = finish s) ∨
    (pixelCount s ≠ 0 ∧ ((srcSpan s).pastTop = true ∨ (dstSpan s).pastTop = true) ∧ t = raise .range s) ∨
    (pixelCount s ≠ 0 ∧ (srcSpan s).pastTop = false ∧ (dstSpan s).pastTop = false ∧ partialOverlap s = true ∧
      t = raise .overlap s) ∨
    (pixelCount s ≠ 0 ∧ (srcSpan s).pastTop = false ∧ (dstSpan s).pastTop = false ∧ partialOverlap s = false ∧
      portReply s.platform [srcSpan s, dstSpan s] = .plain ∧ t = xformDone s) ∨
    (pixelCount s ≠ 0 ∧ (srcSpan s).pastTop = false ∧ (dstSpan s).pastTop = false ∧ partialOverlap s = false ∧
      portReply s.platform [srcSpan s, dstSpan s] = .silent ∧ t = hang .xform s) := by
  unfold execXform at h
  split at h
  · next h0 => injection h with h; exact Or.inl ⟨h0, h.symm⟩
  · next h0 =>
    split at h
    · next hr => injection h with h; exact Or.inr (Or.inl ⟨h0, by simpa using hr, h.symm⟩)
    · next hr =>
      simp only [Bool.or_eq_true, not_or, Bool.not_eq_true] at hr
      split at h
      · next ho => injection h with h; exact Or.inr (Or.inr (Or.inl ⟨h0, hr.1, hr.2, ho, h.symm⟩))
      · next ho =>
        have ho' : partialOverlap s = false := by simpa using ho
        rcases accessing_cases h with ⟨hp, ht⟩ | ⟨hp, ht⟩
        · exact Or.inr (Or.inr (Or.inr (Or.inl ⟨h0, hr.1, hr.2, ho', hp, ht⟩)))
        · exact Or.inr (Or.inr (Or.inr (Or.inr ⟨h0, hr.1, hr.2, ho', hp, ht⟩)))

theorem pastTop_eq_false {r : Span} (h : r.pastTop = false) : r.base + r.len ≤ Config.memSize := by
  simpa [Span.pastTop] using h

/-- The source region's range check as a comparison of numbers (60_exceptions.md R156). -/
theorem srcSpan_pastTop_iff (s : State) :
    (srcSpan s).pastTop = true ↔ 2 ^ 32 < s.src.toNat + 3 * (s.width.toNat * s.height.toNat) :=
  decide_eq_true_iff

/-- The destination region's range check as a comparison of numbers (60_exceptions.md R156). -/
theorem dstSpan_pastTop_iff (s : State) :
    (dstSpan s).pastTop = true ↔ 2 ^ 32 < s.dst.toNat + 3 * (s.width.toNat * s.height.toNat) :=
  decide_eq_true_iff

/-- The overlap check as comparisons of numbers (43_transform.md R130). -/
theorem partialOverlap_iff (s : State) :
    partialOverlap s = true ↔
      s.src ≠ s.dst ∧ s.src.toNat < s.dst.toNat + 3 * (s.width.toNat * s.height.toNat) ∧
        s.dst.toNat < s.src.toNat + 3 * (s.width.toNat * s.height.toNat) :=
  decide_eq_true_iff

/-- The two placements left when no check of 43_transform.md R130 fails: in place, or no shared address (R131). -/
theorem placed_of_not_overlap {s : State} (h : partialOverlap s = false) : Placed (srcSpan s) (dstSpan s) := by
  refine ⟨rfl, ?_⟩
  simp only [partialOverlap, decide_eq_false_iff_not, not_and, not_lt] at h
  by_cases he : s.src = s.dst
  · exact Or.inl (by simp [srcSpan, dstSpan, he])
  · have := h he
    omega

end Sys2Proof.Machine
end

