-- ==== Sys2Proof/Laws/Step.lean ====
section
/-! SUPPORT. Said once: everything a step can do when it answers a next state. -/

namespace Sys2Proof.Machine

/-- The ways in which `step s` answers a next state. -/
inductive StepCase (s : State) : State → Prop where
  | held (op : PortOp) (ops : List PortOp) : s.running = none → s.held = op :: ops → op.wellFormed = true →
      StepCase s (performOp op { s with held := ops })
  | idle : s.running = none → s.held = [] → s.inbox = [] → StepCase s s
  | idleTick (rest : List Input) : s.running = none → s.held = [] → s.inbox = .tick :: rest → StepCase s (taken s)
  | idlePort (op : PortOp) (rest : List Input) : s.running = none → s.held = [] → s.inbox = .port op :: rest →
      op.wellFormed = true → StepCase s (performOp op (taken s))
  | memWrite (a : Word) (vs : List Byte) (rest : List Input) : s.inbox = .memWrite a vs :: rest →
      a.toNat + vs.length ≤ Config.memSize →
      StepCase s (answer .done { taken s with mem := s.mem.writeBytes a.toNat vs })
  | memRead (a : Word) (n : Nat) (rest : List Input) : s.inbox = .memRead a n :: rest →
      StepCase s (answer (.bytes (s.mem.readBytes a.toNat n)) (taken s))
  | reset (t : State) (rest : List Input) : s.inbox = .reset :: rest → (s.running ≠ none ∨ s.held = []) →
      hostReset (taken s) = .next t → StepCase s t
  | run (w : Word) (t : State) : s.running = some w → s.inbox.head? = none ∨ s.inbox.head? = some .tick →
      runWord w (taken s) = .next t → StepCase s t
  | poll (w : Word) (rest : List Input) : s.running = some w → s.inbox = .port (.read .word 0x0004) :: rest →
      StepCase s (pollStatus w (taken s))
  | hold (w : Word) (op : PortOp) (rest : List Input) : s.running = some w → s.inbox = .port op :: rest →
      op.wellFormed = true → StepCase s { taken s with held := s.held ++ [op] }

theorem taken_of_nil {s : State} (h : s.inbox = []) : taken s = s := by
  cases s
  simp only at h
  subst h
  rfl

theorem completeOp_cases {op : PortOp} {s t : State} (h : completeOp op s = .next t) :
    op.wellFormed = true ∧ t = performOp op s := by
  unfold completeOp at h
  split at h
  · next hw => injection h with h; exact ⟨hw, h.symm⟩
  · cases h

theorem hostWrite_cases {a : Word} {vs : List Byte} {s t : State} (h : hostWrite a vs s = .next t) :
    a.toNat + vs.length ≤ Config.memSize ∧ t = answer .done { s with mem := s.mem.writeBytes a.toNat vs } := by
  unfold hostWrite at h
  split at h
  · cases h
  · next hp =>
    split at h
    · cases h
    · split at h
      · cases h
      · injection h with h
        exact ⟨by simpa [Span.pastTop] using hp, h.symm⟩

theorem hostRead_cases {a : Word} {n : Nat} {s t : State} (h : hostRead a n s = .next t) :
    t = answer (.bytes (s.mem.readBytes a.toNat n)) s := by
  unfold hostRead at h
  split at h
  · cases h
  · split at h
    · cases h
    · split at h
      · cases h
      · injection h with h; exact h.symm

theorem holdOp_cases {w : Word} {op : PortOp} {s t : State} (h : holdOp w op s = .next t) :
    op.wellFormed = true ∧ ((op = .read .word 0x0004 ∧ t = pollStatus w s) ∨ t = { s with held := s.held ++ [op] }) := by
  unfold holdOp at h
  split at h
  · cases h
  · next hw =>
    have hw' : op.wellFormed = true := by simpa using hw
    split at h
    · next ho => injection h with h; exact ⟨hw', Or.inl ⟨ho, h.symm⟩⟩
    · injection h with h; exact ⟨hw', Or.inr h.symm⟩

/-- A step that answers a next state is one of the cases above. -/
theorem step_cases {s t : State} (h : step s = .next t) : StepCase s t := by
  unfold step advance at h
  split at h
  · next w hw =>
    unfold busyStep at h
    split at h
    · next hi => exact .run w t hw (Or.inl (by simp [hi])) (by rw [taken_of_nil hi]; exact h)
    · next hi => exact .run w t hw (Or.inr (by simp [hi])) h
    · next op rest hi =>
      obtain ⟨hwf, ⟨rfl, rfl⟩ | rfl⟩ := holdOp_cases h
      · exact .poll w rest hw hi
      · exact .hold w op rest hw hi hwf
    · next a vs rest hi =>
      obtain ⟨hle, rfl⟩ := hostWrite_cases h
      exact .memWrite a vs rest hi hle
    · next a n rest hi =>
      obtain rfl := hostRead_cases h
      exact .memRead a n rest hi
    · next rest hi => exact .reset t rest hi (Or.inl (by simp [hw])) h
  · next hn =>
    split at h
    · next op ops hh =>
      obtain ⟨hwf, rfl⟩ := completeOp_cases h
      exact .held op ops hn hh hwf
    · next hh =>
      unfold idleStep at h
      split at h
      · next hi => injection h with h; subst h; exact .idle hn hh hi
      · next rest hi => injection h with h; subst h; exact .idleTick rest hn hh hi
      · next op rest hi =>
        obtain ⟨hwf, rfl⟩ := completeOp_cases h
        exact .idlePort op rest hn hh hi hwf
      · next a vs rest hi =>
        obtain ⟨hle, rfl⟩ := hostWrite_cases h
        exact .memWrite a vs rest hi hle
      · next a n rest hi =>
        obtain rfl := hostRead_cases h
        exact .memRead a n rest hi
      · next rest hi => exact .reset t rest hi (Or.inr hh) h

/-- A reset answers the reset state of the block, with frame memory as it was or partly transformed. -/
theorem hostReset_cases {s t : State} (h : hostReset s = .next t) :
    t = resetBlock s.mem s ∨
    (xformWorks s = true ∧ t =
      resetBlock (mapSomeBytes s.lut (srcSpan s) (dstSpan s) s.mem s.draws (frameBytes s))
        { s with draws := s.draws + frameBytes s }) := by
  unfold hostReset at h
  split at h
  · unfold abandonXform at h
    split at h
    · next hx =>
      split at h
      · cases h
      · injection h with h; exact Or.inr ⟨hx, h.symm⟩
      · injection h with h; exact Or.inr ⟨hx, h.symm⟩
    · injection h with h; exact Or.inl h.symm
  all_goals injection h with h; exact Or.inl h.symm

end Sys2Proof.Machine
end

