-- ==== Sys2Proof/Laws/Invariant.lean ====
section
/-! SUPPORT. Each operation keeps the invariant of the block. -/

namespace Sys2Proof.Machine

theorem decode_encode_isSome (i : Instr) : (decode (encode i)).isSome = true := by
  cases i <;> rfl

theorem code_toNat_le (k : ErrKind) : k.code.toNat ≤ 8 := by
  cases k <;> decide

/-- Only the fields the invariant speaks of matter. -/
theorem BlockInv.congr {s t : State} (h : BlockInv s) (hm : t.mem = s.mem) (he : t.err = s.err)
    (hh : t.hvalid = s.hvalid) (hc : t.cvalid = s.cvalid) (hr : t.rvalid = s.rvalid) (hn : t.npix = s.npix)
    (hcnt : t.cnt = s.cnt) (hhist : t.hist = s.hist) (hcdf : t.cdf = s.cdf) (href : t.ref = s.ref)
    (hrun : ∀ w, t.running = some w → (decode w).isSome = true) : BlockInv t where
  memory := hm ▸ h.memory
  codes := he ▸ h.codes
  cdfNeedsHist := by rw [hc, hh]; exact h.cdfNeedsHist
  histHeld := by
    rw [hh]
    intro hv
    have := h.histHeld hv
    exact ⟨hn ▸ this.pixels, by rw [hcnt, hn]; exact this.counts, by rw [hcnt, hn, hhist]; exact this.quotients⟩
  cdfHeld := by rw [hc, hcdf, hhist]; exact h.cdfHeld
  refHeld := by rw [hr, href]; exact h.refHeld
  runsCommand := hrun

theorem raise_keeps_inv {s : State} (h : BlockInv s) (k : ErrKind) : BlockInv (raise k s) where
  memory := h.memory
  codes := code_toNat_le k
  cdfNeedsHist := h.cdfNeedsHist
  histHeld hv := ⟨(h.histHeld hv).pixels, (h.histHeld hv).counts, (h.histHeld hv).quotients⟩
  cdfHeld := h.cdfHeld
  refHeld := h.refHeld
  runsCommand w hw := by cases hw

theorem finish_keeps_inv {s : State} (h : BlockInv s) : BlockInv (finish s) where
  memory := h.memory
  codes := Nat.zero_le 8
  cdfNeedsHist := h.cdfNeedsHist
  histHeld hv := ⟨(h.histHeld hv).pixels, (h.histHeld hv).counts, (h.histHeld hv).quotients⟩
  cdfHeld := h.cdfHeld
  refHeld := h.refHeld
  runsCommand w hw := by cases hw

theorem hang_keeps_inv {s : State} (h : BlockInv s) (i : Instr) : BlockInv (hang i s) :=
  h.congr rfl rfl rfl rfl rfl rfl rfl rfl rfl rfl fun w hw => by
    obtain rfl : encode i = w := by injection hw
    exact decode_encode_isSome i

theorem clearFrameFlags_keeps_inv {s : State} (h : BlockInv s) : BlockInv (clearFrameFlags s) where
  memory := h.memory
  codes := h.codes
  cdfNeedsHist hv := by cases hv
  histHeld hv := by cases hv
  cdfHeld hv := by cases hv
  refHeld := h.refHeld
  runsCommand := h.runsCommand

theorem histDone_keeps_inv {s : State} (h : BlockInv s) (h0 : pixelCount s ≠ 0) : BlockInv (histDone s) where
  memory := h.memory
  codes := Nat.zero_le 8
  cdfNeedsHist hv := by cases hv
  histHeld _ := by
    have hn : (histDone s).npix.toNat = pixelCount s := by
      show (BitVec.ofNat 32 (pixelCount s)).toNat = _
      rw [BitVec.toNat_ofNat, Nat.mod_eq_of_lt (pixelCount_lt s)]
    exact ⟨by rw [hn]; omega, fun c => by rw [hn]; exact countTotal_countBytes _ _ (pixelCount_lt s) c, by rw [hn]; rfl⟩
  cdfHeld hv := by cases hv
  refHeld := h.refHeld
  runsCommand w hw := by cases hw

theorem cdfDone_keeps_inv {s : State} (h : BlockInv s) (hv : s.hvalid = true) : BlockInv (cdfDone s) where
  memory := h.memory
  codes := Nat.zero_le 8
  cdfNeedsHist _ := hv
  histHeld hv := ⟨(h.histHeld hv).pixels, (h.histHeld hv).counts, (h.histHeld hv).quotients⟩
  cdfHeld _ := rfl
  refHeld := h.refHeld
  runsCommand w hw := by cases hw

theorem setrefDone_keeps_inv {s : State} (h : BlockInv s) (hc : s.cvalid = true) : BlockInv (setrefDone s) where
  memory := h.memory
  codes := Nat.zero_le 8
  cdfNeedsHist := h.cdfNeedsHist
  histHeld hv := ⟨(h.histHeld hv).pixels, (h.histHeld hv).counts, (h.histHeld hv).quotients⟩
  cdfHeld := h.cdfHeld
  refHeld _ := by
    have hh := h.histHeld (h.cdfNeedsHist hc)
    refine ⟨s.cnt, s.npix.toNat, hh.pixels, s.npix.isLt, hh.counts, ?_⟩
    show s.cdf = _
    rw [h.cdfHeld hc, ← hh.quotients]
  runsCommand w hw := by cases hw

theorem lutgenDone_keeps_inv {s : State} (h : BlockInv s) : BlockInv (lutgenDone s) :=
  finish_keeps_inv (h.congr rfl rfl rfl rfl rfl rfl rfl rfl rfl rfl h.runsCommand)

/-- Replacing frame memory by memory in canonical form keeps the invariant. -/
theorem mem_keeps_inv {s : State} (h : BlockInv s) {m : Memory} (hm : m.wf = true) : BlockInv { s with mem := m } where
  memory := hm
  codes := h.codes
  cdfNeedsHist := h.cdfNeedsHist
  histHeld hv := ⟨(h.histHeld hv).pixels, (h.histHeld hv).counts, (h.histHeld hv).quotients⟩
  cdfHeld := h.cdfHeld
  refHeld := h.refHeld
  runsCommand := h.runsCommand

theorem xformDone_keeps_inv {s : State} (h : BlockInv s) (hd : (dstSpan s).pastTop = false) : BlockInv (xformDone s) :=
  finish_keeps_inv (mem_keeps_inv h (wf_mapBytes _ _ _ h.memory _ (pastTop_eq_false hd)))

/-- Every command keeps the invariant, however it ends. -/
theorem exec_keeps_inv {i : Instr} {s t : State} (h : BlockInv s) (he : exec i s = .next t) : BlockInv t := by
  cases i with
  | hist =>
    rcases execHist_cases he with ⟨_, rfl⟩ | ⟨_, _, rfl⟩ | ⟨h0, _, _, rfl⟩ | ⟨_, _, _, rfl⟩
    · exact raise_keeps_inv (clearFrameFlags_keeps_inv h) _
    · exact raise_keeps_inv (clearFrameFlags_keeps_inv h) _
    · exact histDone_keeps_inv h h0
    · exact hang_keeps_inv (clearFrameFlags_keeps_inv h) _
  | cdf =>
    rcases execCdf_cases he with ⟨_, rfl⟩ | ⟨hv, rfl⟩
    · exact raise_keeps_inv h _
    · exact cdfDone_keeps_inv h hv
  | setref =>
    rcases execSetref_cases he with ⟨_, rfl⟩ | ⟨_, _, rfl⟩ | ⟨hc, _, rfl⟩
    · exact raise_keeps_inv h _
    · exact raise_keeps_inv h _
    · exact setrefDone_keeps_inv h hc
  | lutgen =>
    rcases execLutgen_cases he with ⟨_, rfl⟩ | ⟨_, _, rfl⟩ | ⟨_, _, rfl⟩
    · exact raise_keeps_inv h _
    · exact raise_keeps_inv h _
    · exact lutgenDone_keeps_inv h
  | xform =>
    rcases execXform_cases he with ⟨_, rfl⟩ | ⟨_, _, rfl⟩ | ⟨_, _, _, _, rfl⟩ | ⟨_, _, hd, _, _, rfl⟩ | ⟨_, _, _, _, _, rfl⟩
    · exact finish_keeps_inv h
    · exact raise_keeps_inv h _
    · exact raise_keeps_inv h _
    · exact xformDone_keeps_inv h hd
    · exact hang_keeps_inv h _

theorem answer_keeps_inv {s : State} (h : BlockInv s) (r : Reply) : BlockInv (answer r s) :=
  h.congr rfl rfl rfl rfl rfl rfl rfl rfl rfl rfl h.runsCommand

theorem acceptCommand_keeps_inv {s : State} (h : BlockInv s) (w : Word) : BlockInv (acceptCommand w s) := by
  unfold acceptCommand
  split
  · next i hd =>
    refine h.congr rfl rfl rfl rfl rfl rfl rfl rfl rfl rfl fun w' hw => ?_
    obtain rfl : w = w' := by injection hw
    rw [hd]
    rfl
  · exact raise_keeps_inv h _

theorem regRead_keeps_inv {s : State} (h : BlockInv s) (off : Nat) : BlockInv (regRead off s).2 := by
  have hd : BlockInv (drawn s) := h.congr rfl rfl rfl rfl rfl rfl rfl rfl rfl rfl h.runsCommand
  have hg : ∀ valid v, BlockInv (guardedRead valid v s).2 := by
    intro valid v
    unfold guardedRead
    split
    · exact h
    · exact hd
  unfold regRead
  split <;> try exact h
  next t c i _ => cases t <;> first | exact hg _ _ | exact h

theorem regWrite_keeps_inv {s : State} (h : BlockInv s) (off : Nat) (v : Word) : BlockInv (regWrite off v s) := by
  unfold regWrite
  split
  case h_1 => exact acceptCommand_keeps_inv h v
  case h_9 t c i _ =>
    cases t <;> first | exact h | exact h.congr rfl rfl rfl rfl rfl rfl rfl rfl rfl rfl h.runsCommand
  all_goals first | exact h | exact h.congr rfl rfl rfl rfl rfl rfl rfl rfl rfl rfl h.runsCommand

theorem performOp_keeps_inv {s : State} (h : BlockInv s) (op : PortOp) : BlockInv (performOp op s) := by
  cases op with
  | read _ off => exact answer_keeps_inv (regRead_keeps_inv h off) _
  | write _ off v => exact answer_keeps_inv (regWrite_keeps_inv h off v) _

theorem taken_keeps_inv {s : State} (h : BlockInv s) : BlockInv (taken s) :=
  h.congr rfl rfl rfl rfl rfl rfl rfl rfl rfl rfl h.runsCommand

theorem resetBlock_has_inv {m : Memory} (hm : m.wf = true) (s : State) : BlockInv (resetBlock m s) where
  memory := hm
  codes := Nat.zero_le 8
  cdfNeedsHist hv := by cases hv
  histHeld hv := by cases hv
  cdfHeld hv := by cases hv
  refHeld hv := by cases hv
  runsCommand w hw := by cases hw

theorem xformWorks_dst {s : State} (h : xformWorks s = true) : (dstSpan s).pastTop = false := by
  simp only [xformWorks, Bool.and_eq_true, Bool.not_eq_true'] at h
  exact h.1.2

end Sys2Proof.Machine
end

