-- ==== Sys2Proof/Laws/PerInstr.lean ====
section
/-! SUPPORT. Statements made instruction by instruction: the word of each command, field by field. -/

namespace Sys2Proof.Laws.Encoding

/-- The reserved field of a command's word is 0 and its low byte is the command's opcode (30_encoding.md R86). -/
def Statement (i : Instr) : Prop :=
  i.wellFormed = true ∧ (encode i).extractLsb' 8 24 = 0 ∧ (encode i).extractLsb' 0 8 = i.opcode ∧
    (splitWord (encode i)).wellFormed = true

theorem hist : Statement .hist := by unfold Statement; decide
theorem cdf : Statement .cdf := by unfold Statement; decide
theorem setref : Statement .setref := by unfold Statement; decide
theorem lutgen : Statement .lutgen := by unfold Statement; decide
theorem xform : Statement .xform := by unfold Statement; decide

end Sys2Proof.Laws.Encoding
end

