-- ==== Sys2Proof/Laws/Port.lean ====
section
/-! SUPPORT. Where the tables lie in the register window. -/

namespace Sys2Proof.Machine

theorem tableAddr_entryOffset (t : TableName) (c : Fin 3) (i : Fin 256) :
    tableAddr t (entryOffset t c i) = .table t c i := by
  have hc := c.isLt
  have hi := i.isLt
  have h1 : entryOffset t c i - tableBase t = 0x400 * c.val + 4 * i.val := by unfold entryOffset; omega
  have h2 : (0x400 * c.val + 4 * i.val) / 0x400 = c.val := by omega
  have h3 : (0x400 * c.val + 4 * i.val) % 0x400 / 4 = i.val := by omega
  unfold tableAddr
  simp only [h1, h2, h3, hc, dite_true]

/-- The map of the window sends a table entry's offset to that entry (10_state.md R39). -/
theorem regAddr_entryOffset (t : TableName) (c : Fin 3) (i : Fin 256) :
    regAddr (entryOffset t c i) = .table t c i := by
  have hc := c.isLt
  have hi := i.isLt
  rw [← tableAddr_entryOffset]
  have hlo : tableBase t ≤ entryOffset t c i := by unfold entryOffset; omega
  have hhi : entryOffset t c i < tableBase t + 0xC00 := by unfold entryOffset; omega
  generalize entryOffset t c i = off at hlo hhi ⊢
  unfold regAddr
  cases t <;> simp only [tableBase] at hlo hhi
  · rw [if_neg (by omega), if_pos (by omega)]
  · rw [if_neg (by omega), if_neg (by omega), if_pos (by omega)]
  · rw [if_neg (by omega), if_neg (by omega), if_neg (by omega), if_pos (by omega)]
  · rw [if_neg (by omega), if_neg (by omega), if_neg (by omega), if_neg (by omega), if_pos (by omega)]
  · rw [if_neg (by omega), if_neg (by omega), if_neg (by omega), if_neg (by omega), if_neg (by omega), if_pos (by omega)]

theorem regRead_entryOffset (t : TableName) (c : Fin 3) (i : Fin 256) (s : State) :
    regRead (entryOffset t c i) s = readEntry t c i s := by
  rw [regRead, regAddr_entryOffset]

theorem regWrite_entryOffset (t : TableName) (c : Fin 3) (i : Fin 256) (v : Word) (s : State) :
    regWrite (entryOffset t c i) v s = writeEntry t c i v s := by
  rw [regWrite, regAddr_entryOffset]

end Sys2Proof.Machine
end

