-- ==== Sys2Proof/Machine/HostSequences.lean ====
section
/-! DEFINITION. The host notation and its pseudo-instructions (30_encoding.md R90, R91), and the SequenceDriver as a
host sequence (45_host_sequences.md R143, R144). A host statement is delivered to the block and one `tick` follows it,
so that an accepted command has completed before the next statement (R91: "With atomic commands `BUSY` is 0 at that
read"). -/

namespace Sys2Proof.Machine

/-- One statement of the host notation (30_encoding.md R90, R91). -/
inductive Stmt where
  /-- `WR reg, value` with the register's offset. -/
  | wr (off : Nat) (v : Word)
  /-- `RD reg`. -/
  | rd (off : Nat)
  /-- A command by its mnemonic: `WR CMD, opcode`. -/
  | cmd (i : Instr)
  /-- `.word value`: `WR CMD, value`. -/
  | word (v : Word)
  /-- `ok`: read `STATUS`, leave the sequence if `ERR` is not 0. -/
  | ok
  /-- `WAIT`: read `STATUS` until `BUSY` is 0. -/
  | wait
  deriving DecidableEq, Repr

/-- How a host sequence ends. -/
inductive HostEnd where
  /-- Every statement was issued. -/
  | done (s : State)
  /-- An `ok` found this error code; no later statement was issued. -/
  | failed (code : BitVec 4) (s : State)
  /-- `BUSY` never falls: the memory port does not answer (70_reset_and_hazards.md R190). -/
  | hung (s : State)
  | fault (r : Fault)
  | refused (r : Refusal)
  deriving DecidableEq, Repr

/-- Something arrives at the block now. -/
def deliver (x : Input) (s : State) : Result := step { s with inbox := x :: s.inbox }

/-- One step's answer handed on. -/
def Result.andThen (r : Result) (f : State → HostEnd) : HostEnd :=
  match r with
  | .next s => f s
  | .fault x => .fault x
  | .refused x => .refused x

/-- A transaction, and then time for a command it started. -/
def issue (op : PortOp) (s : State) (f : State → HostEnd) : HostEnd :=
  Result.andThen (deliver (.port op) s) fun t => Result.andThen (deliver .tick t) f

/-- A host sequence, statement by statement. A block that is busy when a statement begins hangs (no command outlives
its `tick` otherwise), and a host waits for it for ever. -/
def runSeq : List Stmt → State → HostEnd
  | [], s => .done s
  | st :: rest, s =>
    if busy s then .hung s
    else
      match st with
      | .wr off v => issue (.write .word off v) s (runSeq rest)
      | .rd off => issue (.read .word off) s (runSeq rest)
      | .cmd i => issue (.write .word 0x0000 (encode i)) s (runSeq rest)
      | .word v => issue (.write .word 0x0000 v) s (runSeq rest)
      | .ok => issue (.read .word 0x0004) s fun t => if t.err = 0 then runSeq rest t else .failed t.err t
      | .wait => issue (.read .word 0x0004) s (runSeq rest)

/-- `FRAME src, w, h` (30_encoding.md R91). -/
def seqFrame (src : Word) (w h : Dim) : List Stmt :=
  [.wr 0x0008 src, .wr 0x0010 (w.setWidth 32), .wr 0x0014 (h.setWidth 32)]

/-- `REFERENCE src, w, h` (30_encoding.md R91; 45_host_sequences.md R143). -/
def seqReference (src : Word) (w h : Dim) : List Stmt :=
  seqFrame src w h ++ [.cmd .hist, .ok, .cmd .cdf, .ok, .cmd .setref, .ok]

/-- `MATCH src, dst, w, h` (30_encoding.md R91; 45_host_sequences.md R144). -/
def seqMatch (src dst : Word) (w h : Dim) : List Stmt :=
  seqFrame src w h ++
    [.wr 0x000C dst, .cmd .hist, .ok, .cmd .cdf, .ok, .cmd .lutgen, .ok, .cmd .xform, .ok]

/-- `CLRERR` (30_encoding.md R91). -/
def seqClrErr : List Stmt := [.wr 0x001C 0x000001FE]

/-- `LUTIDENT` (30_encoding.md R91). -/
def seqLutIdent : List Stmt :=
  (List.finRange 3).flatMap fun c =>
    (List.finRange 256).map fun i => .wr (entryOffset .lut c i) (BitVec.ofNat 32 i.val)

/-- A frame the host has decoded into frame memory, and where its output goes (45_host_sequences.md R144). -/
structure FrameJob where
  src : Word
  dst : Word
  width : Dim
  height : Dim
  deriving DecidableEq, Repr

/-- The process loop: an error skips the frame's output and the loop goes on (45_host_sequences.md R142, R144). -/
def processFrames : List FrameJob → State → HostEnd
  | [], s => .done s
  | j :: js, s =>
    match runSeq (seqMatch j.src j.dst j.width j.height) s with
    | .done t => processFrames js t
    | .failed _ t => processFrames js t
    | .hung t => .hung t
    | .fault x => .fault x
    | .refused x => .refused x

/-- The SequenceDriver: an error while the Reference is established ends the run (45_host_sequences.md R143), then
every remaining frame in order (R144); the start frame alone issues no `LUTGEN` and no `XFORM` (R145). -/
def runDriver (start : FrameJob) (frames : List FrameJob) (s : State) : HostEnd :=
  match runSeq (seqReference start.src start.width start.height) s with
  | .done t => processFrames frames t
  | .failed code t => .failed code t
  | .hung t => .hung t
  | .fault x => .fault x
  | .refused x => .refused x

end Sys2Proof.Machine
end

