-- ==== Sys2Proof/Tests/Slice0.lean ====
section
/-! SUPPORT. The model's own tests. Expected values come from 95_test_vectors.md (V1 to V13) or are worked out by hand
from the rule cited. -/

namespace Sys2Proof.Tests

open Sys2Proof.Machine

/-! Well-formedness: one ill-formed term for each check. -/

theorem test_wf_rsv : (CommandWord.mk 1 1).wellFormed = false := by decide
theorem test_wf_op_zero : (CommandWord.mk 0 0).wellFormed = false := by decide
theorem test_wf_op_six : (CommandWord.mk 0 6).wellFormed = false := by decide
theorem test_wf_command : (CommandWord.mk 0 5).wellFormed = true := by decide
theorem test_wf_size : (PortOp.read .half 0x0004).wellFormed = false := by decide
theorem test_wf_align : (PortOp.write .word 0x0006 0).wellFormed = false := by decide
theorem test_wf_window : (PortOp.read .word 0x8000).wellFormed = false := by decide
theorem test_wf_last : (PortOp.read .word 0x7FFC).wellFormed = true := by decide

/-! Decoding, each word written out bit by bit from 30_encoding.md R86, R88: rsv 31:8, then op 7:0 (V12). -/

theorem test_decode_hist : decode 0b000000000000000000000000_00000001 = some .hist := by decide
theorem test_decode_cdf : decode 0b000000000000000000000000_00000010 = some .cdf := by decide
theorem test_decode_setref : decode 0b000000000000000000000000_00000011 = some .setref := by decide
theorem test_decode_lutgen : decode 0b000000000000000000000000_00000100 = some .lutgen := by decide
theorem test_decode_xform : decode 0b000000000000000000000000_00000101 = some .xform := by decide
theorem test_decode_zero : decode 0x00000000 = none := by decide
theorem test_decode_rsv : decode 0x00000101 = none := by decide
theorem test_decode_table_word : decodeTableWord 32 5 = some .xform := by decide

/-! Binary32, from 00_scope.md R13 to R15 and 95_test_vectors.md V2 h, V3 e, f. -/

theorem test_f32_third : f32Div (f32OfNat 1) (f32OfNat 3) = 0x3EAAAAAB := by decide
theorem test_f32_tenth : f32Div (f32OfNat 1) (f32OfNat 10) = 0x3DCCCCCD := by decide
theorem test_f32_threshold_of_one : f32Sub 0x3F800000 Config.epsBits = 0x3F7FFFEF := by decide
theorem test_f32_threshold_of_zero : f32Sub 0 Config.epsBits = 0xB58637BD := by decide
theorem test_f32_sum_above_one : f32Add 0x3F666668 0x3DCCCCCD = 0x3F800001 := by decide
theorem test_f32_lt_zeros : f32Lt 0x80000000 0 = false := by decide
theorem test_f32_tie_to_even : f32OfNat 16777217 = 0x4B800000 := by decide

/-! A small state: the frame FA of 95_test_vectors.md at 0x100, 2 x 2, DST = 0x200. -/

/-- The bytes of FA at 0x100. -/
def frameFA : Memory :=
  [(0x100, 0x0A), (0x101, 0x14), (0x102, 0x1E), (0x103, 0x0A), (0x104, 0x14), (0x105, 0x1F),
   (0x106, 0x0C), (0x107, 0x14), (0x108, 0x1E), (0x109, 0xC8), (0x10A, 0x15), (0x10B, 0x1E)]

/-- The reset state with FA in frame memory and the operand registers set. -/
def small : State :=
  { State.reset with src := 0x100, dst := 0x200, width := 2, height := 2, mem := frameFA }

/-- `small` after its `HIST`. -/
def counted : State := histDone small

/-- `small` after its `HIST` and `CDF`. -/
def summed : State := cdfDone counted

/-- `small` after its `HIST`, `CDF` and `SETREF`. -/
def referenced : State := setrefDone summed

/-- `small` with a command word accepted and one more input waiting. -/
def busyWith (w : Word) (x : Input) : State := { small with running := some w, inbox := [x] }

/-- `small` idle with one input waiting. -/
def idleWith (x : Input) : State := { small with inbox := [x] }

/-- `small` on a platform where 16 bytes at 0x100 are not plain memory. -/
def smallOn (k : RegionKind) : State := { small with platform := [⟨0x100, 16, k⟩] }

/-! V1: HIST on FA. -/

theorem test_hist_count : entry counted.cnt 1 20 = 3 := by decide +kernel
theorem test_hist_quotient : entry counted.hist 2 30 = 0x3F400000 := by decide +kernel
theorem test_hist_exec : exec .hist small = .next counted := rfl

/-! V2: errors of HIST, at the boundary of the address space. -/

theorem test_hist_empty : exec .hist State.reset = .next (raise .empty (clearFrameFlags State.reset)) := rfl
theorem test_hist_top_legal : (srcSpan { small with src := 0xFFFFFFF4 }).pastTop = false := by decide
theorem test_hist_top_range : (srcSpan { small with src := 0xFFFFFFF5 }).pastTop = true := by decide

/-! V3, V4: CDF and SETREF. -/

theorem test_cdf_entry : entry summed.cdf 0 12 = 0x3F400000 := by decide +kernel
theorem test_cdf_nohist : status (raise .noHist State.reset) = 0x00000040 := by decide
theorem test_setref_status : status referenced = 0x00000700 := by decide
theorem test_setref_locked : exec .setref referenced = .next (raise .refLocked referenced) := rfl

/-! V9 b: FA against itself; the cursor of channel 1 stops at 20, then at 21. -/

theorem test_lutgen_self : entry (lutgenDone referenced).lut 1 20 = 19 := by decide +kernel
theorem test_lutgen_noref : exec .lutgen summed = .next (raise .noRef summed) := rfl

/-! V11: XFORM. -/

theorem test_xform_copies : (xformDone small).mem.readBytes 0x200 3 = [0x0A, 0x14, 0x1E] := by decide +kernel
theorem test_xform_adjacent_legal : partialOverlap { small with dst := 0x10C } = false := by decide
theorem test_xform_overlap : partialOverlap { small with dst := 0x10B } = true := by decide
theorem test_xform_error : exec .xform { small with dst := 0x101 } = .next (raise .overlap { small with dst := 0x101 }) := rfl

/-! V13: the register port. -/

theorem test_port_lut_identity : (regRead 0x5A00 State.reset).1 = 0x80 := by decide +kernel
theorem test_port_lut_low_byte : (regRead 0x5200 (regWrite 0x5200 0xABCDEF12 State.reset)).1 = 0x12 := by decide +kernel
theorem test_port_width : (regRead 0x0010 (regWrite 0x0010 0xFFFFFFFF State.reset)).1 = 0x0000FFFF := by decide
theorem test_port_errlog_clear : errlogWord (errlogClear 0x12 0x00000004) = 0x00000020 := by decide
theorem test_port_table_offset : regAddr 0x4BFC = .table .ref 2 255 := by decide

/-! Host sequences (30_encoding.md R91): how many statements each expansion has. -/

theorem test_seq_reference : (seqReference 0x1000 2 2).length = 9 := by decide
theorem test_seq_match : (seqMatch 0x2000 0x3000 2 2).length = 12 := by decide

/-! Witnesses: for each statement with hypotheses a state and operands that meet them together, one for each clause,
at a boundary where the clause has one. -/

/-- The hypotheses on which `HIST` and `XFORM` do their work, and the invariant, hold of `small`. -/
theorem small_mem_wf : small.mem.wf = true := by decide

theorem small_inv : BlockInv small where
  memory := small_mem_wf
  codes := by decide
  cdfNeedsHist h := by cases h
  histHeld h := by cases h
  cdfHeld h := by cases h
  refHeld h := by cases h
  runsCommand w h := by cases h

theorem counted_inv : BlockInv counted := histDone_keeps_inv small_inv (by decide)
theorem summed_inv : BlockInv summed := cdfDone_keeps_inv counted_inv rfl
theorem referenced_inv : BlockInv referenced := setrefDone_keeps_inv summed_inv rfl

theorem witness_reset_taken :
    (idleWith .reset).running = none ∧ (idleWith .reset).held = [] ∧ (idleWith .reset).inbox = .reset :: [] := by
  decide

/-- A reset that cuts off a `HIST`, with a transaction held. -/
theorem witness_reset_taken_busy :
    ({ busyWith 1 .reset with held := [.read .word 0] }).running = some 1 ∧
      ({ busyWith 1 .reset with held := [.read .word 0] }).inbox = .reset :: [] ∧ decode 1 ≠ some .xform := by decide

theorem witness_step_runs :
    ({ small with running := some 1 }).running = some 1 ∧ ({ small with running := some 1 }).inbox = [] ∧
      (busyWith 1 .tick).inbox = .tick :: [] ∧ decode 1 = some .hist ∧ Instr.wellFormed .hist = true ∧
      decodeTableWord 32 1 = some .hist := by decide

theorem witness_cmd_write :
    (idleWith (.port (.write .word 0x0000 5))).running = none ∧ (idleWith (.port (.write .word 0x0000 5))).held = [] ∧
      (idleWith (.port (.write .word 0x0000 5))).inbox = .port (.write .word 0x0000 5) :: [] ∧
      decode 5 = some .xform := by decide

theorem witness_illegal_word : small.running = none ∧ ¬(1 ≤ (6 : Word).toNat ∧ (6 : Word).toNat ≤ 5) ∧
    ¬(1 ≤ (0 : Word).toNat ∧ (0 : Word).toNat ≤ 5) ∧ decode 6 = none := by decide

theorem witness_takes_reset : TakesReset (idleWith .reset) ∧
    step (idleWith .reset) = .next (resetBlock small.mem (taken (idleWith .reset))) := ⟨by decide, rfl⟩

theorem witness_hist_empty : State.reset.width.toNat * State.reset.height.toNat = 0 := by decide

theorem witness_hist_range :
    ({ small with src := 0xFFFFFFF5 }).width.toNat * ({ small with src := 0xFFFFFFF5 }).height.toNat ≠ 0 ∧
      2 ^ 32 < ({ small with src := 0xFFFFFFF5 }).src.toNat +
        3 * (({ small with src := 0xFFFFFFF5 }).width.toNat * ({ small with src := 0xFFFFFFF5 }).height.toNat) := by
  decide

theorem witness_hist_works :
    ({ small with src := 0xFFFFFFF4 }).width.toNat * ({ small with src := 0xFFFFFFF4 }).height.toNat ≠ 0 ∧
      ({ small with src := 0xFFFFFFF4 }).src.toNat +
        3 * (({ small with src := 0xFFFFFFF4 }).width.toNat * ({ small with src := 0xFFFFFFF4 }).height.toNat) ≤ 2 ^ 32 ∧
      OnPlainMemory .hist { small with src := 0xFFFFFFF4 } := by decide

theorem witness_cdf : small.hvalid = false ∧ counted.hvalid = true := by decide

theorem witness_setref :
    counted.cvalid = false ∧ summed.cvalid = true ∧ summed.rvalid = false ∧ referenced.cvalid = true ∧
      referenced.rvalid = true := by decide

theorem witness_xform_empty :
    State.reset.mem.wf = true ∧ State.reset.width.toNat * State.reset.height.toNat = 0 := by decide

theorem witness_xform_range :
    ({ small with dst := 0xFFFFFFF5 }).mem.wf = true ∧
      ({ small with dst := 0xFFFFFFF5 }).width.toNat * ({ small with dst := 0xFFFFFFF5 }).height.toNat ≠ 0 ∧
      2 ^ 32 < ({ small with dst := 0xFFFFFFF5 }).dst.toNat +
        3 * (({ small with dst := 0xFFFFFFF5 }).width.toNat * ({ small with dst := 0xFFFFFFF5 }).height.toNat) := by
  decide

theorem witness_xform_source_range :
    ({ small with src := 0xFFFFFFF5 }).mem.wf = true ∧
      2 ^ 32 < ({ small with src := 0xFFFFFFF5 }).src.toNat +
        3 * (({ small with src := 0xFFFFFFF5 }).width.toNat * ({ small with src := 0xFFFFFFF5 }).height.toNat) := by
  decide

theorem witness_xform_overlap :
    ({ small with dst := 0x10B }).mem.wf = true ∧
      ({ small with dst := 0x10B }).src ≠ ({ small with dst := 0x10B }).dst ∧
      ({ small with dst := 0x10B }).src.toNat < ({ small with dst := 0x10B }).dst.toNat + 12 ∧
      ({ small with dst := 0x10B }).dst.toNat < ({ small with dst := 0x10B }).src.toNat + 12 ∧
      3 * (({ small with dst := 0x10B }).width.toNat * ({ small with dst := 0x10B }).height.toNat) = 12 := by decide

/-- `XFORM` to the adjacent region, and in place. -/
theorem witness_xform_works :
    (firstError .xform { small with dst := 0x10C } = 0 ∧ OnPlainMemory .xform { small with dst := 0x10C }) ∧
      (firstError .xform { small with dst := 0x100 } = 0 ∧ OnPlainMemory .xform { small with dst := 0x100 }) := by
  decide

theorem witness_first_error : exec .hist small = .next counted ∧ counted.running = none := ⟨rfl, rfl⟩

theorem witness_error_ends :
    exec .cdf small = .next (raise .noHist small) ∧ (raise .noHist small).running = none ∧
      (raise .noHist small).err ≠ 0 ∧ exec .cdf counted = .next summed ∧ summed.err = 0 := ⟨rfl, rfl, by decide, rfl, rfl⟩

theorem witness_unbacked :
    (smallOn .unbacked).width.toNat * (smallOn .unbacked).height.toNat ≠ 0 ∧ firstError .hist (smallOn .unbacked) = 0 ∧
      firstError .xform (smallOn .unbacked) = 0 ∧
      portReply (smallOn .unbacked).platform (commandSpans .hist (smallOn .unbacked)) = .unbacked ∧
      portReply (smallOn .unbacked).platform (commandSpans .xform (smallOn .unbacked)) = .unbacked := by decide

theorem witness_silent :
    (smallOn .silent).width.toNat * (smallOn .silent).height.toNat ≠ 0 ∧ firstError .hist (smallOn .silent) = 0 ∧
      firstError .xform (smallOn .silent) = 0 ∧
      portReply (smallOn .silent).platform (commandSpans .hist (smallOn .silent)) = .silent ∧
      portReply (smallOn .silent).platform (commandSpans .xform (smallOn .silent)) = .silent := by decide

/-- A step from a state with the invariant; the Reference is set and no reset is taken. -/
theorem witness_inv_step : BlockInv referenced ∧ step referenced = .next referenced ∧ referenced.rvalid = true ∧
    ¬TakesReset referenced := ⟨referenced_inv, rfl, rfl, by rintro ⟨h, _⟩; cases h⟩

theorem witness_busy_holds :
    (busyWith 1 (.port (.write .word 0x0008 7))).running = some 1 ∧
      (busyWith 1 (.port (.write .word 0x0008 7))).inbox = .port (.write .word 0x0008 7) :: [] ∧
      (PortOp.write .word 0x0008 7).wellFormed = true ∧ PortOp.write .word 0x0008 7 ≠ .read .word 0x0004 ∧
      ({ small with held := [.write .word 0x0008 7] }).running = none ∧
      ({ small with held := [.write .word 0x0008 7] }).held = .write .word 0x0008 7 :: [] := by decide

theorem witness_status_poll :
    (busyWith 1 (.port (.read .word 0x0004))).running = some 1 ∧
      (busyWith 1 (.port (.read .word 0x0004))).inbox = .port (.read .word 0x0004) :: [] := by decide

theorem witness_idle_port :
    (idleWith (.port (.read .word 0x7FFC))).running = none ∧ (idleWith (.port (.read .word 0x7FFC))).held = [] ∧
      (idleWith (.port (.read .word 0x7FFC))).inbox = .port (.read .word 0x7FFC) :: [] ∧ 0x7FFC % 4 = 0 ∧
      0x7FFC < 0x8000 ∧ (idleWith (.port (.write .word 0x0000 1))).inbox = .port (.write .word 0x0000 1) :: [] := by
  decide

theorem witness_port_protocol :
    (idleWith (.port (.read .word 0x8000))).held = [] ∧
      (idleWith (.port (.read .word 0x8000))).inbox = .port (.read .word 0x8000) :: [] ∧
      (∀ size off, (PortOp.read .word 0x8000 = .read size off ∨ ∃ v, PortOp.read .word 0x8000 = .write size off v) →
        size ≠ .word ∨ off % 4 ≠ 0 ∨ 0x8000 ≤ off) := by
  refine ⟨rfl, rfl, fun size off h => ?_⟩
  rcases h with h | ⟨v, h⟩
  · cases h; decide
  · cases h

theorem witness_errlog_bit : (regRead 0x001C (raise .overlap small)).1.getLsbD 8 = true := by decide

/-- The first and the last word of each reserved range. -/
theorem witness_reserved :
    (regAddr 0x0020 = .reserved ∧ regAddr 0x0FFC = .reserved) ∧ (regAddr 0x1C00 = .reserved ∧ regAddr 0x1FFC = .reserved) ∧
      (regAddr 0x2C00 = .reserved ∧ regAddr 0x2FFC = .reserved) ∧ (regAddr 0x3C00 = .reserved ∧ regAddr 0x3FFC = .reserved) ∧
      (regAddr 0x4C00 = .reserved ∧ regAddr 0x4FFC = .reserved) ∧ (regAddr 0x5C00 = .reserved ∧ regAddr 0x7FFC = .reserved) := by
  decide

theorem witness_tables_valid : referenced.hvalid = true ∧ referenced.cvalid = true ∧ referenced.rvalid = true := by decide
theorem witness_tables_invalid : small.hvalid = false ∧ small.cvalid = false ∧ small.rvalid = false := by decide

theorem witness_lut_other_entry : (0 : Fin 3) ≠ 1 ∨ (7 : Fin 256) ≠ 7 := by decide

/-- A reset cuts off a `HIST`. -/
theorem witness_reset_abandons_hist :
    (busyWith 1 .reset).mem.wf = true ∧ (busyWith 1 .reset).running = some 1 ∧ decode 1 = some .hist ∧
      (busyWith 1 .reset).inbox = .reset :: [] ∧ Instr.hist ≠ .xform := by decide

theorem witness_reset_abandons :
    (busyWith 5 .reset).mem.wf = true ∧ (busyWith 5 .reset).running = some 5 ∧ decode 5 = some .xform ∧
      (busyWith 5 .reset).inbox = .reset :: [] ∧
      portReply (busyWith 5 .reset).platform (commandSpans .xform (busyWith 5 .reset)) ≠ .unbacked := by decide

/-- The last byte of the source, the first byte of the destination. -/
theorem witness_race_write :
    (busyWith 5 (.memWrite 0x10B [1])).running = some 5 ∧ decode 5 = some .xform ∧
      (0x10B : Word).toNat + 1 ≤ 2 ^ 32 ∧ meetsKind small.platform .unbacked [⟨(0x10B : Word).toNat, 1⟩] = false ∧
      Span.meets ⟨(0x10B : Word).toNat, 1⟩ (srcSpan small) = true ∧
      Span.meets ⟨(0x200 : Word).toNat, 1⟩ (dstSpan small) = true := by decide

theorem witness_race_write_hist :
    (busyWith 1 (.memWrite 0x100 [1])).running = some 1 ∧ decode 1 = some .hist ∧
      (0x100 : Word).toNat + 1 ≤ 2 ^ 32 ∧ meetsKind small.platform .unbacked [⟨(0x100 : Word).toNat, 1⟩] = false ∧
      Span.meets ⟨(0x100 : Word).toNat, 1⟩ (srcSpan small) = true := by decide

theorem witness_race_read :
    (busyWith 5 (.memRead 0x20B 1)).running = some 5 ∧ (0x20B : Word).toNat + 1 ≤ 2 ^ 32 ∧
      meetsKind small.platform .unbacked [⟨(0x20B : Word).toNat, 1⟩] = false ∧
      Span.meets ⟨(0x20B : Word).toNat, 1⟩ (dstSpan small) = true := by decide

theorem witness_host_frame :
    ({ small with inbox := [.memWrite 0xFFFFFFFE [1, 0], .memRead 0xFFFFFFFE 2] }).mem.wf = true ∧
      (0xFFFFFFFE : Word).toNat + [1, 0].length ≤ 2 ^ 32 ∧
      meetsKind small.platform .unbacked [⟨(0xFFFFFFFE : Word).toNat, 2⟩] = false := by decide

theorem witness_lut_order : (0 : Fin 256) ≤ 255 := by decide

/-- A source row of zeros: every threshold is `-EPS`. -/
theorem witness_closed_form (b b' : Fin 256) :
    f32IsNaN (f32Sub (entry zeroTable 0 b) Config.epsBits) = false ∧
      f32Lt (f32Sub (entry zeroTable 0 b') Config.epsBits) (f32Sub (entry zeroTable 0 b) Config.epsBits) = false := by
  simp only [zeroTable, entry_tableOfFn]
  decide

/-- With the LUT of reset, `XFORM` on `small` ends without an error. -/
theorem witness_identity_copy :
    (∀ c i, (entry small.lut c i).toNat = i.val) ∧ exec .xform small = .next (xformDone small) ∧
      (xformDone small).running = none ∧ (xformDone small).err = 0 := by
  refine ⟨fun c i => ?_, rfl, rfl, rfl⟩
  have : small.lut = identityLut := rfl
  rw [this, identityLut, entry_tableOfFn, BitVec.toNat_ofNat]
  exact Nat.mod_eq_of_lt i.isLt

theorem witness_order (c : Fin 3) (b b' : Fin 256) (h : b ≤ b') :
    (entry small.lut c b).toNat ≤ (entry small.lut c b').toNat ∧ (0 : Nat) < 12 ∧ (9 : Nat) < 12 ∧ 0 % 3 = 9 % 3 ∧
      (small.mem.read 0x100).toNat ≤ (small.mem.read 0x109).toNat := by
  have e := witness_identity_copy.1
  exact ⟨by rw [e, e]; exact h, by decide, by decide, by decide, by decide⟩

/-- A table that differs from the zeros in bin 0 alone. -/
theorem witness_bin_zero (c : Fin 3) (j : Fin 256) (h : 1 ≤ j.val) :
    entry zeroTable c j = entry (setEntry zeroTable 0 0 1) c j :=
  (entry_setEntry_other _ _ _ _ _ _ (Or.inr (by intro e; subst e; exact absurd h (by decide)))).symm

theorem witness_hist_success : exec .hist small = .next counted ∧ counted.running = none ∧ counted.err = 0 :=
  ⟨rfl, rfl, rfl⟩

theorem witness_matched_frame :
    referenced.mem.wf = true ∧ exec .lutgen referenced = .next (lutgenDone referenced) ∧
      (lutgenDone referenced).err = 0 ∧
      exec .xform (lutgenDone referenced) = .next (xformDone (lutgenDone referenced)) ∧
      (xformDone (lutgenDone referenced)).running = none ∧ (xformDone (lutgenDone referenced)).err = 0 :=
  ⟨small_mem_wf, rfl, rfl, rfl, rfl, rfl⟩

theorem witness_valid_tables : BlockInv referenced ∧ referenced.hvalid = true ∧ referenced.cvalid = true ∧
    referenced.rvalid = true := ⟨referenced_inv, rfl, rfl, rfl⟩

theorem witness_quotient_counts : 1 ≤ 1 ∧ 4294836225 < 2 ^ 32 := by decide
theorem witness_ofNat_exact : 2 ^ 24 ≤ 2 ^ 24 ∧ (2 ^ 24 - 1) * 2 ^ 8 < 2 ^ 32 := by decide

theorem witness_rounding : f32Round (2 ^ 149) 3 < 0x7F800000 ∧ f32IsInf 0x3F800000 = false ∧
    f32IsNaN 0x3F800000 = false := by decide

/-- Two blocks that agree on the frame and the Reference and differ in `NPIX` and `ERRLOG`. -/
theorem witness_same_frame :
    referenced.rvalid = true ∧ ({ referenced with npix := 9, errlog := 1 }).rvalid = true ∧
      referenced.ref = ({ referenced with npix := 9, errlog := 1 }).ref ∧
      referenced.width = ({ referenced with npix := 9, errlog := 1 }).width ∧
      referenced.height = ({ referenced with npix := 9, errlog := 1 }).height ∧
      (∀ k, k < 3 * (referenced.width.toNat * referenced.height.toNat) →
        referenced.mem.read (referenced.src.toNat + k) =
          ({ referenced with npix := 9, errlog := 1 }).mem.read
            (({ referenced with npix := 9, errlog := 1 }).src.toNat + k)) ∧
      referenced.width.toNat * referenced.height.toNat ≠ 0 ∧ firstError .hist referenced = 0 ∧
      firstError .hist { referenced with npix := 9, errlog := 1 } = 0 ∧ OnPlainMemory .hist referenced ∧
      OnPlainMemory .hist { referenced with npix := 9, errlog := 1 } :=
  ⟨rfl, rfl, rfl, rfl, rfl, fun _ _ => rfl, by decide, by decide, by decide, by decide, by decide⟩

end Sys2Proof.Tests
end

section
/-! The mapper's two laws for every number format (00_scope.md R17), from the laws of its cursor. -/

namespace Sys2Proof.Machine

/-- A LUT entry, as a number: the cursor after its source bin, less one. -/
theorem toNat_entry_buildLut {V : Type} (F : NumFormat V) (ref src : Table V) (c : Fin 3) (b : Fin 256) :
    (entry (buildLut F ref src) c b).toNat = (cursorAt F ref[c] 1 src[c].toList (b.val + 1)).val - 1 := by
  rw [entry_buildLut, toNat_lutEntry]

/-- Settles O38: the cursor is a bin index, at most 255, and an entry is one less. -/
theorem lutEntriesAtMost254 : Obligations.LutEntriesAtMost254 := by
  intro V F ref src c b
  have hcur := (cursorAt F ref[c] 1 src[c].toList (b.val + 1)).isLt
  rw [toNat_entry_buildLut]
  omega

/-- Settles O39: the one cursor of a channel never moves back between source bins. -/
theorem lutIsNonDecreasing : Obligations.LutIsNonDecreasing := by
  intro V F ref src c b b' hbb
  have hmono : Monotone fun n => (cursorAt F ref[c] 1 src[c].toList n).val :=
    monotone_nat_of_le_succ (cursorAt_mono F ref[c] 1 src[c].toList)
  rw [toNat_entry_buildLut, toNat_entry_buildLut]
  exact Nat.sub_le_sub_right (hmono (Nat.succ_le_succ hbb)) 1

end Sys2Proof.Machine
end

section
/-! Rounding to binary32 gives a nearest number, is exact on what is representable, and is monotone
(00_scope.md R9 to R11). -/

namespace Sys2Proof.Machine

/-- No multiple of `u` is nearer to `n` than the rounded quotient times `u`. -/
theorem roundHalfEven_nearest (n : Nat) {u : Nat} (hu : 0 < u) (z : Int) :
    |(roundHalfEven n u : Int) * u - n| ≤ |z * u - n| := by
  have hnear := roundHalfEven_near n hu
  rw [abs_mul, abs_two] at hnear
  by_cases hz : z = roundHalfEven n u
  · rw [hz]
  · have hstep : (u : Int) ≤ |(z - roundHalfEven n u) * u| := by
      rw [abs_mul, Nat.abs_cast]
      exact le_mul_of_one_le_left (Int.natCast_nonneg u) (Int.one_le_abs (sub_ne_zero.mpr hz))
    have htri : |(z - roundHalfEven n u) * (u : Int)| ≤ |z * u - n| + |(roundHalfEven n u : Int) * u - n| := by
      rw [sub_mul, ← sub_sub_sub_cancel_right (z * (u : Int)) _ (n : Int)]
      exact abs_sub _ _
    linarith

/-- The magnitude of a pattern is nowhere nearer to `n / d` than the magnitude rounding gives. A pattern of a coarser
or equal last place is a multiple of the result's; one of a finer last place lies below the binade of `n / d`, so
the start of that binade is already as near. -/
theorem magPat_f32Round_nearest {n d : Nat} (hd : 0 < d) (hfin : f32Round n d < 0x7F800000) (p : Nat) :
    |(magPat (f32Round n d) : Int) * d - n| ≤ |(magPat p : Int) * d - n| := by
  obtain ⟨m, k, hm, -, -, hmag⟩ := magPat_cases p
  obtain ⟨-, hquot⟩ := quotient_bits n d
  rw [magPat_f32Round hfin, hmag]
  generalize f32Shift (n / d) = s at *
  have hu : 0 < d * 2 ^ s := by positivity
  have hnearest := roundHalfEven_nearest n hu
  have hshift : ∀ z : Nat, ((z * 2 ^ s : Nat) : Int) * d = (z : Int) * ((d * 2 ^ s : Nat) : Int) := by
    intro z; push_cast; ring
  rw [hshift]
  rcases Nat.lt_or_ge k s with hks | hks
  · have hbinade : 2 ^ 23 * (d * 2 ^ s) ≤ n :=
      (Nat.le_div_iff_mul_le hu).mp (hquot.resolve_left (by omega))
    have hbelow : m * 2 ^ k * d ≤ 2 ^ 23 * (d * 2 ^ s) :=
      calc m * 2 ^ k * d ≤ 2 ^ 24 * 2 ^ k * d := by gcongr
        _ = 2 ^ 23 * (d * 2 ^ (k + 1)) := by ring
        _ ≤ 2 ^ 23 * (d * 2 ^ s) := by gcongr <;> omega
    calc _ ≤ |((2 ^ 23 : Nat) : Int) * ((d * 2 ^ s : Nat) : Int) - n| := hnearest _
      _ ≤ |((m * 2 ^ k : Nat) : Int) * d - n| := by
        rw [← Nat.cast_mul, ← Nat.cast_mul, abs_sub_comm, abs_sub_comm _ (n : Int), abs_of_nonneg (by omega),
          abs_of_nonneg (by omega)]
        omega
  · have hcoarse : m * 2 ^ k = m * 2 ^ (k - s) * 2 ^ s := by
      rw [mul_assoc, ← pow_add, Nat.sub_add_cancel hks]
    rw [hcoarse, hshift]
    exact hnearest _

/-- Settles O49: the magnitude of every word is the magnitude of a pattern. -/
theorem roundingIsNearest : Obligations.RoundingIsNearest := by
  intro n d x hd hfin _ _
  rw [f32Mag_pack false (by omega), f32Mag_eq_magPat x]
  exact magPat_f32Round_nearest hd hfin _

/-- A greater ratio has no smaller rounded quotient. -/
theorem roundHalfEven_mono {n n' u u' : Nat} (hu : 0 < u) (hu' : 0 < u') (h : n * u' ≤ n' * u) :
    roundHalfEven n u ≤ roundHalfEven n' u' := by
  have hn : u * (n / u) + n % u = n := Nat.div_add_mod n u
  have hn' : u' * (n' / u') + n' % u' = n' := Nat.div_add_mod n' u'
  have hfloor : n / u ≤ n' / u' := by
    rw [Nat.le_div_iff_mul_le hu']
    refine Nat.le_of_mul_le_mul_right ?_ hu
    calc n / u * u' * u = n / u * u * u' := by ring
      _ ≤ n * u' := Nat.mul_le_mul_right u' (Nat.div_mul_le_self n u)
      _ ≤ n' * u := h
  rcases Nat.lt_or_eq_of_le hfloor with hlt | heq
  · rcases roundHalfEven_cases n u with h1 | h1 <;> rcases roundHalfEven_cases n' u' with h2 | h2 <;> omega
  · have hfrac : n % u * u' ≤ n' % u' * u := by
      rw [← heq] at hn'
      generalize n / u = q, n % u = r, n' % u' = r' at *
      subst hn hn'
      nlinarith
    have hup : u < 2 * (n % u) → u' < 2 * (n' % u') := fun hr => by nlinarith
    have htie : 2 * (n % u) = u → u' ≤ 2 * (n' % u') := fun hr => by nlinarith
    unfold roundHalfEven
    split <;> split <;> omega

/-- A greater quotient has no smaller last place. -/
theorem f32Shift_mono {q q' : Nat} (h : q ≤ q') : f32Shift q ≤ f32Shift q' := by
  have hlog : q.log2 ≤ q'.log2 := by
    rw [Nat.log2_eq_log_two, Nat.log2_eq_log_two]
    exact Nat.log_mono_right h
  unfold f32Shift
  split <;> split <;> omega

/-- Rounding is monotone: a greater ratio has no smaller pattern. Within a binade the significands are ordered, and
from one binade to the next the exponent is. -/
theorem f32Round_mono {n d n' d' : Nat} (hd : 0 < d) (hd' : 0 < d') (h : n * d' ≤ n' * d) :
    f32Round n d ≤ f32Round n' d' := by
  have hq : n / d ≤ n' / d' := by
    rw [Nat.le_div_iff_mul_le hd']
    refine Nat.le_of_mul_le_mul_right ?_ hd
    calc n / d * d' * d = n / d * d * d' := by ring
      _ ≤ n * d' := Nat.mul_le_mul_right d' (Nat.div_mul_le_self n d)
      _ ≤ n' * d := h
  obtain ⟨hm, -⟩ := significand_bits n d
  obtain ⟨-, hm'⟩ := significand_bits n' d'
  refine min_le_min_right _ ?_
  rcases Nat.lt_or_eq_of_le (f32Shift_mono hq) with hlt | heq
  · omega
  · rw [← heq]
    refine Nat.add_le_add_right (roundHalfEven_mono (by positivity) (by positivity) ?_) _
    calc n * (d' * 2 ^ f32Shift (n / d)) = n * d' * 2 ^ f32Shift (n / d) := by ring
      _ ≤ n' * d * 2 ^ f32Shift (n / d) := Nat.mul_le_mul_right _ h
      _ = n' * (d * 2 ^ f32Shift (n / d)) := by ring

/-- The magnitudes of patterns are ordered as the patterns are. -/
theorem magPat_mono {p p' : Nat} (h : p ≤ p') : magPat p ≤ magPat p' := by
  obtain ⟨m, k, hm, hk, rfl, hmag⟩ := magPat_cases p
  obtain ⟨m', k', hm', hk', rfl, hmag'⟩ := magPat_cases p'
  rw [hmag, hmag']
  rcases Nat.lt_or_ge k k' with hkk | hkk
  · calc m * 2 ^ k ≤ 2 ^ 24 * 2 ^ k := by gcongr
      _ = 2 ^ 23 * 2 ^ (k + 1) := by ring
      _ ≤ m' * 2 ^ k' := by gcongr <;> omega
  · obtain rfl : k = k' := by omega
    exact Nat.mul_le_mul_right _ (by omega)

/-- What divides is not rounded. -/
theorem roundHalfEven_of_dvd {n u : Nat} (hu : 0 < u) (h : u ∣ n) : roundHalfEven n u = n / u := by
  rw [roundHalfEven, Nat.mod_eq_zero_of_dvd h, if_neg (by omega)]

/-- A ratio of at most `2 ^ 181` units (2^32) has a finite pattern. -/
theorem f32Round_finite {n d : Nat} (hd : 0 < d) (h : n ≤ 2 ^ 181 * d) : f32Round n d < 0x7F800000 :=
  calc f32Round n d ≤ f32Round (2 ^ 181) 1 := f32Round_mono hd one_pos (by omega)
    _ < 0x7F800000 := by decide

/-- A magnitude whose last place divides it is represented exactly. -/
theorem magPat_f32Round_of_dvd {n : Nat} (h : 2 ^ f32Shift n ∣ n) (hn : n ≤ 2 ^ 181) :
    magPat (f32Round n 1) = n := by
  rw [magPat_f32Round (f32Round_finite one_pos (by omega)), Nat.div_one, one_mul,
    roundHalfEven_of_dvd (by positivity) h, Nat.div_mul_cancel h]

/-- The last place of a magnitude of at most 24 significant bits divides it. -/
theorem two_pow_f32Shift_dvd {m k : Nat} (hm : m ≤ 2 ^ 24) : 2 ^ f32Shift (m * 2 ^ k) ∣ m * 2 ^ k := by
  rcases Nat.lt_or_eq_of_le hm with hlt | rfl
  · refine dvd_mul_of_dvd_right (pow_dvd_pow 2 (f32Shift_le ?_)) m
    rw [pow_add, mul_comm]
    gcongr
  · have hshift : f32Shift (2 ^ 24 * 2 ^ k) ≤ k + 1 := by
      rw [← pow_add]
      exact f32Shift_le (Nat.pow_lt_pow_right one_lt_two (by omega))
    rw [← pow_add] at hshift ⊢
    exact pow_dvd_pow 2 (hshift.trans (by omega))

/-- Rounding gives a pattern of 31 bits, and packing it as non-negative keeps it. -/
theorem toNat_pack_f32Round (n d : Nat) : (f32Pack false (f32Round n d)).toNat = f32Round n d := by
  rw [toNat_f32Pack false (Nat.lt_of_le_of_lt (f32Round_le n d) (by decide))]
  exact Nat.zero_add _

theorem f32Mag_pack_f32Round (neg : Bool) (n d : Nat) : f32Mag (f32Pack neg (f32Round n d)) = magPat (f32Round n d) :=
  f32Mag_pack neg (Nat.lt_of_le_of_lt (f32Round_le n d) (by decide))

/-- Conversion is exact for an integer of at most 24 significant bits (00_scope.md R10). -/
theorem f32Mag_f32OfNat_exact {m j : Nat} (hm : m ≤ 2 ^ 24) (h : m * 2 ^ j ≤ 2 ^ 32) :
    f32Mag (f32OfNat (m * 2 ^ j)) = m * 2 ^ j * 2 ^ 149 := by
  rw [f32OfNat, f32Mag_pack_f32Round]
  refine magPat_f32Round_of_dvd ?_ (by omega)
  rw [mul_assoc, ← pow_add]
  exact two_pow_f32Shift_dvd hm

theorem f32Neg_f32OfNat (n : Nat) : f32Neg (f32OfNat n) = false :=
  f32Neg_pack false (Nat.lt_of_le_of_lt (f32Round_le _ 1) (by decide))

/-- Settles O48: the last place of such an integer divides it, so rounding changes nothing. -/
theorem ofNatIsExact : Obligations.OfNatIsExact := by
  intro m j hm h
  change f32Units (f32OfNat (m * 2 ^ j)) = _
  rw [f32Units, f32Neg_f32OfNat, f32Mag_f32OfNat_exact hm h.le]
  push_cast
  rfl

end Sys2Proof.Machine
end

section
/-! The numbers the rules store are +0 or positive normal numbers (00_scope.md R15): quotients of counts, and sums of
them from the first bin up. -/

namespace Sys2Proof.Machine

/-- The patterns of the numbers the rules store. -/
theorem zeroOrNormal_iff (a : F32) : zeroOrNormal a ↔ a.toNat = 0 ∨ (2 ^ 23 ≤ a.toNat ∧ a.toNat < 0x7F800000) := by
  have hlt := a.isLt
  have hzero : a = 0 ↔ a.toNat = 0 := BitVec.toNat_inj.symm
  rw [zeroOrNormal, hzero, f32Neg, f32Exp, decide_eq_false_iff_not]
  omega

/-- A stored number is finite and not negative. -/
theorem finite_of_zeroOrNormal {a : F32} (ha : zeroOrNormal a) :
    f32IsNaN a = false ∧ f32IsInf a = false ∧ f32Neg a = false := by
  have hexp : f32Neg a = false ∧ f32Exp a ≠ 255 := by
    rcases ha with rfl | ⟨hneg, -, hhi⟩
    · decide
    · exact ⟨hneg, by omega⟩
  obtain ⟨hneg, hne⟩ := hexp
  simp [f32IsNaN, f32IsInf, hneg, hne]

theorem f32Units_of_zeroOrNormal {a : F32} (ha : zeroOrNormal a) : f32Units a = f32Mag a := by
  rw [f32Units, (finite_of_zeroOrNormal ha).2.2]
  rfl

/-- A stored number other than +0 is at least `2 ^ 23` units, the least normal number. -/
theorem f32Mag_of_zeroOrNormal {a : F32} (ha : zeroOrNormal a) : f32Mag a = 0 ∨ 2 ^ 23 ≤ f32Mag a := by
  rcases (zeroOrNormal_iff a).mp ha with h | ⟨hlo, hhi⟩
  · exact Or.inl (by rw [f32Mag_eq_magPat, h]; rfl)
  · right
    calc 2 ^ 23 = magPat (2 ^ 23) := by decide
      _ ≤ magPat (a.toNat % 2 ^ 31) := magPat_mono (by omega)
      _ = f32Mag a := (f32Mag_eq_magPat a).symm

/-- A ratio that is 0, or at least the least normal number and at most 2^32, rounds to a number the rules may store. -/
theorem zeroOrNormal_pack_f32Round {n d : Nat} (hd : 0 < d) (hlo : n = 0 ∨ 2 ^ 23 * d ≤ n) (hhi : n ≤ 2 ^ 181 * d) :
    zeroOrNormal (f32Pack false (f32Round n d)) := by
  rw [zeroOrNormal_iff, toNat_pack_f32Round]
  rcases hlo with rfl | hlo
  · left
    have hle : f32Round 0 d ≤ f32Round 0 1 := f32Round_mono hd one_pos (by omega)
    exact Nat.le_zero.mp hle
  · right
    refine ⟨?_, f32Round_finite hd hhi⟩
    calc 2 ^ 23 = f32Round (2 ^ 23) 1 := by decide
      _ ≤ f32Round n d := f32Round_mono one_pos hd (by omega)

/-- The sum of two stored numbers is their exact sum, rounded once. -/
theorem f32Add_of_zeroOrNormal {a b : F32} (ha : zeroOrNormal a) (hb : zeroOrNormal b) :
    f32Add a b = f32Pack false (f32Round (f32Mag a + f32Mag b) 1) := by
  obtain ⟨hnanA, hinfA, hnegA⟩ := finite_of_zeroOrNormal ha
  obtain ⟨hnanB, hinfB, -⟩ := finite_of_zeroOrNormal hb
  have hfinite : f32Add a b = f32AddFinite a b := by simp [f32Add, hnanA, hnanB, hinfA, hinfB]
  rw [hfinite, f32AddFinite, f32Units_of_zeroOrNormal ha, f32Units_of_zeroOrNormal hb, hnegA, ← Nat.cast_add,
    Int.natAbs_natCast, decide_eq_false (by omega)]
  split
  · next h => rw [Int.natCast_eq_zero.mp h]; rfl
  · rfl

/-- The quotient of two stored numbers, the divisor not 0, is their exact ratio, rounded once. -/
theorem f32Div_of_zeroOrNormal {a b : F32} (ha : zeroOrNormal a) (hb : zeroOrNormal b) (h0 : f32Mag b ≠ 0) :
    f32Div a b = f32Pack false (f32Round (f32Mag a * 2 ^ 149) (f32Mag b)) := by
  obtain ⟨hnanA, hinfA, hnegA⟩ := finite_of_zeroOrNormal ha
  obtain ⟨hnanB, hinfB, hnegB⟩ := finite_of_zeroOrNormal hb
  simp [f32Div, hnanA, hnanB, hinfA, hinfB, hnegA, hnegB, h0]

/-- Conversion of a 32-bit count gives a number the rules may store. -/
theorem zeroOrNormal_f32OfNat {n : Nat} (h : n ≤ 2 ^ 32) : zeroOrNormal (f32OfNat n) :=
  zeroOrNormal_pack_f32Round one_pos (by omega) (by omega)

/-- Conversion is monotone in value. -/
theorem f32Mag_f32OfNat_mono {m n : Nat} (h : m ≤ n) : f32Mag (f32OfNat m) ≤ f32Mag (f32OfNat n) := by
  rw [f32OfNat, f32OfNat, f32Mag_pack_f32Round, f32Mag_pack_f32Round]
  exact magPat_mono (f32Round_mono one_pos one_pos (by omega))

theorem f32Mag_f32OfNat_small {n : Nat} (h : n ≤ 2 ^ 24) : f32Mag (f32OfNat n) = n * 2 ^ 149 := by
  simpa using f32Mag_f32OfNat_exact (j := 0) h (by omega)

/-- A positive 32-bit count converts to a number from 1 to 2^32. -/
theorem f32Mag_f32OfNat_bounds {n : Nat} (h1 : 1 ≤ n) (h2 : n ≤ 2 ^ 32) :
    2 ^ 149 ≤ f32Mag (f32OfNat n) ∧ f32Mag (f32OfNat n) ≤ 2 ^ 181 := by
  have hone : f32Mag (f32OfNat 1) = 2 ^ 149 := by decide
  have htop : f32Mag (f32OfNat (2 ^ 32)) = 2 ^ 181 := by decide
  exact ⟨hone ▸ f32Mag_f32OfNat_mono h1, htop ▸ f32Mag_f32OfNat_mono h2⟩

/-- A number the rules may store, of value at most `k`. -/
def StoredAtMost (k : Nat) (a : F32) : Prop := zeroOrNormal a ∧ f32Mag a ≤ k * 2 ^ 149

/-- A rounded ratio of at most `k` has a value of at most `k`, since `k` itself is represented. -/
theorem f32Mag_pack_f32Round_le {n d k : Nat} (hd : 0 < d) (hk : k ≤ 2 ^ 24) (h : n ≤ k * 2 ^ 149 * d) :
    f32Mag (f32Pack false (f32Round n d)) ≤ k * 2 ^ 149 := by
  rw [← f32Mag_f32OfNat_small hk, f32OfNat, f32Mag_pack_f32Round, f32Mag_pack_f32Round]
  exact magPat_mono (f32Round_mono hd one_pos (by omega))

/-- R15 (a): the quotient of a count by the pixel count is +0 or a normal number of at most 1. -/
theorem quotient_storedAtMost {count n : Nat} (h1 : 1 ≤ n) (h2 : n < 2 ^ 32) (hc : count ≤ n) :
    StoredAtMost 1 (f32Div (f32OfNat count) (f32OfNat n)) := by
  obtain ⟨hlo, hhi⟩ := f32Mag_f32OfNat_bounds h1 h2.le
  have hle : f32Mag (f32OfNat count) ≤ f32Mag (f32OfNat n) := f32Mag_f32OfNat_mono hc
  have hzero : count = 0 → f32Mag (f32OfNat count) = 0 := fun h => by rw [h]; decide
  have hone : 1 ≤ count → 2 ^ 149 ≤ f32Mag (f32OfNat count) := fun h => (f32Mag_f32OfNat_bounds h (by omega)).1
  rw [f32Div_of_zeroOrNormal (zeroOrNormal_f32OfNat (by omega)) (zeroOrNormal_f32OfNat h2.le) (by omega)]
  exact ⟨zeroOrNormal_pack_f32Round (by omega) (by omega) (by omega),
    f32Mag_pack_f32Round_le (by omega) (by omega) (by omega)⟩

/-- R15 (b), one step: a sum of at most `k` and a number of at most 1 is at most `k + 1`, rounding included. -/
theorem f32Add_storedAtMost {a b : F32} {k : Nat} (hk : k < 256) (ha : StoredAtMost k a) (hb : StoredAtMost 1 b) :
    StoredAtMost (k + 1) (f32Add a b) := by
  obtain ⟨hza, hka⟩ := ha
  obtain ⟨hzb, hkb⟩ := hb
  have hlo := f32Mag_of_zeroOrNormal hza
  have hlo' := f32Mag_of_zeroOrNormal hzb
  rw [f32Add_of_zeroOrNormal hza hzb]
  exact ⟨zeroOrNormal_pack_f32Round one_pos (by omega) (by omega),
    f32Mag_pack_f32Round_le one_pos (by omega) (by omega)⟩

/-- No count exceeds the sum of its channel's counts. -/
theorem entry_le_countTotal (cnt : Table Word) (c : Fin 3) (i : Fin 256) : (entry cnt c i).toNat ≤ countTotal cnt c := by
  rw [countTotal_eq_sum]
  exact Finset.single_le_sum (f := fun j => (entry cnt c j).toNat) (fun _ _ => Nat.zero_le _) (Finset.mem_univ i)

section
variable {cnt : Table Word} {n : Nat} (h1 : 0 < n) (h2 : n < 2 ^ 32) (hsum : ∀ c : Fin 3, countTotal cnt c = n)
include h1 h2 hsum

/-- Every entry of a histogram is +0 or a normal number of at most 1. -/
theorem entry_normalise_storedAtMost (c : Fin 3) (i : Fin 256) :
    StoredAtMost 1 (entry (normalise binary32 cnt n) c i) := by
  rw [entry_normalise]
  exact quotient_storedAtMost h1 h2 (hsum c ▸ entry_le_countTotal cnt c i)

/-- Entry `i` of a CDF is +0 or a normal number of at most `i + 1`, by induction on the bins it sums. -/
theorem entry_integrate_storedAtMost (c : Fin 3) (i : Nat) (hi : i < 256) :
    StoredAtMost (i + 1) (entry (integrate binary32 (normalise binary32 cnt n)) c ⟨i, hi⟩) := by
  induction i with
  | zero =>
    have h0 := entry_normalise_storedAtMost h1 h2 hsum c 0
    rwa [← entry_integrate_zero binary32] at h0
  | succ i ih =>
    rw [entry_integrate_succ]
    exact f32Add_storedAtMost hi (ih (Nat.lt_of_succ_lt hi)) (entry_normalise_storedAtMost h1 h2 hsum c ⟨i + 1, hi⟩)

end

/-- Every entry of a histogram that a successful `HIST` left is +0 or normal. -/
theorem HistHeld.zeroOrNormal_hist {s : State} (h : HistHeld s) (c : Fin 3) (i : Fin 256) :
    zeroOrNormal (entry s.hist c i) := by
  rw [h.quotients]
  exact (entry_normalise_storedAtMost h.pixels s.npix.isLt h.counts c i).1

/-- Every entry of a valid CDF is +0 or normal. -/
theorem ValidCdf.zeroOrNormal_entry {t : Table F32} (h : ValidCdf t) (c : Fin 3) (i : Fin 256) :
    zeroOrNormal (entry t c i) := by
  obtain ⟨cnt, n, h1, h2, hsum, rfl⟩ := h
  exact (entry_integrate_storedAtMost h1 h2 hsum c i.val i.isLt).1

/-- What `CVALID` says: table `C` is a valid CDF. -/
theorem BlockInv.validCdf {s : State} (h : BlockInv s) (hc : s.cvalid = true) : ValidCdf s.cdf := by
  obtain ⟨hpixels, hcounts, hquotients⟩ := h.histHeld (h.cdfNeedsHist hc)
  exact ⟨s.cnt, s.npix.toNat, hpixels, s.npix.isLt, hcounts, by rw [h.cdfHeld hc, hquotients]⟩

/-- Settles O46: the quotients are +0 or normal, and so are the sums of a valid CDF, which `R` is too. -/
theorem storedNumbersAreZeroOrNormal : Obligations.StoredNumbersAreZeroOrNormal := by
  intro s h c i
  exact ⟨fun hv => (h.histHeld hv).zeroOrNormal_hist c i, fun hv => (h.validCdf hv).zeroOrNormal_entry c i,
    fun hv => (h.refHeld hv).zeroOrNormal_entry c i⟩

end Sys2Proof.Machine
end

section
/-! The invariant of the block, step by step: it holds at reset and every step keeps it. -/

namespace Sys2Proof.Machine

theorem pollStatus_keeps_inv {s : State} (h : BlockInv s) (w : Word) : BlockInv (pollStatus w s) :=
  h.congr rfl rfl rfl rfl rfl rfl rfl rfl rfl rfl h.runsCommand

/-- What is held while `BUSY` is 1 is no part of the invariant. -/
theorem held_keeps_inv {s : State} (h : BlockInv s) (ops : List PortOp) : BlockInv { s with held := ops } :=
  h.congr rfl rfl rfl rfl rfl rfl rfl rfl rfl rfl h.runsCommand

theorem runWord_keeps_inv {w : Word} {s t : State} (h : BlockInv s) (hr : runWord w s = .next t) : BlockInv t := by
  unfold runWord at hr
  split at hr
  · exact exec_keeps_inv h hr
  · injection hr with hr
    exact hr ▸ raise_keeps_inv h .illegal

/-- A reset leaves memory in canonical form, since a cut-off `XFORM` writes below the top of memory only. -/
theorem hostReset_keeps_inv {s t : State} (h : BlockInv s) (hr : hostReset s = .next t) : BlockInv t := by
  rcases hostReset_cases hr with rfl | ⟨hx, rfl⟩
  · exact resetBlock_has_inv h.memory s
  · exact resetBlock_has_inv (wf_mapSomeBytes _ _ _ h.memory _ _ (pastTop_eq_false (xformWorks_dst hx))) _

/-- Settles O21: one case for each way a step answers a next state. -/
theorem everyStepKeepsBlockInv : Obligations.EveryStepKeepsBlockInv := by
  intro s t h hs
  have htaken : BlockInv (taken s) := taken_keeps_inv h
  cases step_cases hs with
  | held op ops => exact performOp_keeps_inv (held_keeps_inv h ops) op
  | idle => exact h
  | idleTick => exact htaken
  | idlePort op => exact performOp_keeps_inv htaken op
  | memWrite a vs _ _ htop =>
    exact answer_keeps_inv (mem_keeps_inv htaken (Memory.wf_writeBytes h.memory vs htop)) _
  | memRead => exact answer_keeps_inv htaken _
  | reset _ _ _ _ hr => exact hostReset_keeps_inv htaken hr
  | run _ _ _ _ hr => exact runWord_keeps_inv htaken hr
  | poll w => exact pollStatus_keeps_inv htaken w
  | hold => exact held_keeps_inv htaken _

/-- Settles O20: the reset state is what a reset of the block makes of itself, on empty memory. -/
theorem resetHasBlockInv : Obligations.ResetHasBlockInv := resetBlock_has_inv Memory.wf_reset State.reset

/-- Settles O17: however a command ends, it has updated other fields only. -/
theorem noCommandWritesOperands : Obligations.NoCommandWritesOperands := by
  intro i s t he
  cases i with
  | hist =>
    rcases execHist_cases he with ⟨_, rfl⟩ | ⟨_, _, rfl⟩ | ⟨_, _, _, rfl⟩ | ⟨_, _, _, rfl⟩ <;> and_intros <;> rfl
  | cdf => rcases execCdf_cases he with ⟨_, rfl⟩ | ⟨_, rfl⟩ <;> and_intros <;> rfl
  | setref => rcases execSetref_cases he with ⟨_, rfl⟩ | ⟨_, _, rfl⟩ | ⟨_, _, rfl⟩ <;> and_intros <;> rfl
  | lutgen => rcases execLutgen_cases he with ⟨_, rfl⟩ | ⟨_, _, rfl⟩ | ⟨_, _, rfl⟩ <;> and_intros <;> rfl
  | xform =>
    rcases execXform_cases he with ⟨_, rfl⟩ | ⟨_, _, rfl⟩ | ⟨_, _, _, _, rfl⟩ | ⟨_, _, _, _, _, rfl⟩ |
      ⟨_, _, _, _, _, rfl⟩ <;> and_intros <;> rfl

end Sys2Proof.Machine
end

section
/-! What the next step does, by what is running, what is held and what arrives (10_state.md R40), and the statements
about the port's order, the command's start and reset that follow. -/

namespace Sys2Proof.Machine

theorem taken_of_cons {s : State} {x : Input} {rest : List Input} (h : s.inbox = x :: rest) :
    taken s = { s with inbox := rest } := by
  rw [taken, h]
  rfl

theorem step_of_busy {s : State} {w : Word} (hw : s.running = some w) : step s = busyStep w s := by
  simp only [step, advance, hw]

theorem step_of_idle {s : State} (hn : s.running = none) (hh : s.held = []) : step s = idleStep s := by
  simp only [step, advance, hn, hh]

/-- When `BUSY` has fallen, the oldest held transaction comes first, whatever has arrived. -/
theorem step_of_held {s : State} {op : PortOp} {ops : List PortOp} (hn : s.running = none) (hh : s.held = op :: ops) :
    step s = completeOp op { s with held := ops } := by
  simp only [step, advance, hn, hh]

theorem step_port_of_busy {s : State} {w : Word} {op : PortOp} {rest : List Input} (hw : s.running = some w)
    (hi : s.inbox = .port op :: rest) : step s = holdOp w op { s with inbox := rest } := by
  rw [step_of_busy hw, busyStep, hi, taken_of_cons hi]

theorem step_port_of_idle {s : State} {op : PortOp} {rest : List Input} (hn : s.running = none) (hh : s.held = [])
    (hi : s.inbox = .port op :: rest) : step s = completeOp op { s with inbox := rest } := by
  rw [step_of_idle hn hh, idleStep, hi, taken_of_cons hi]

theorem step_reset {s : State} {rest : List Input} (h : s.running ≠ none ∨ s.held = []) (hi : s.inbox = .reset :: rest) :
    step s = hostReset { s with inbox := rest } := by
  obtain hn | ⟨w, hw⟩ := Option.eq_none_or_eq_some s.running
  · rw [step_of_idle hn (h.resolve_left (not_not_intro hn)), idleStep, hi, taken_of_cons hi]
  · rw [step_of_busy hw, busyStep, hi, taken_of_cons hi]

theorem runWord_of_decode {w : Word} {i : Instr} (hd : decode w = some i) (s : State) : runWord w s = exec i s := by
  simp only [runWord, hd]

theorem step_run_of_nil {s : State} {w : Word} (hw : s.running = some w) (hi : s.inbox = []) : step s = runWord w s := by
  rw [step_of_busy hw, busyStep, hi]

theorem step_run_of_tick {s : State} {w : Word} {rest : List Input} (hw : s.running = some w)
    (hi : s.inbox = .tick :: rest) : step s = runWord w { s with inbox := rest } := by
  rw [step_of_busy hw, busyStep, hi, taken_of_cons hi]

/-- Settles O5: nothing arrives, or a `tick` does, and the word that runs is decoded and executed. -/
theorem stepRunsDecodedCommand : Obligations.StepRunsDecodedCommand := by
  refine ⟨fun s w i hw hd _ => ⟨fun hi => ?_, fun rest hi => ?_⟩, fun s nbits w i hd => ?_⟩
  · rw [step_run_of_nil hw hi, runWord_of_decode hd]
  · rw [step_run_of_tick hw hi, runWord_of_decode hd]
  · have hrun : (s.withFetchWord nbits w).running = some (tableWord nbits w) := rfl
    rw [step_run_of_tick (rest := s.inbox) hrun rfl, runWord_of_decode hd]
    rfl

theorem completeOp_of_wellFormed {op : PortOp} (h : op.wellFormed = true) (s : State) :
    completeOp op s = .next (performOp op s) := if_pos h

theorem completeOp_of_not_wellFormed {op : PortOp} (h : op.wellFormed = false) (s : State) :
    completeOp op s = .refused .portProtocol := by
  rw [completeOp, h]
  rfl

theorem holdOp_of_not_wellFormed {op : PortOp} (h : op.wellFormed = false) (w : Word) (s : State) :
    holdOp w op s = .refused .portProtocol := if_pos h

theorem holdOp_of_ne_status {op : PortOp} (h : op.wellFormed = true) (hne : op ≠ .read .word 0x0004) (w : Word)
    (s : State) : holdOp w op s = .next { s with held := s.held ++ [op] } := by
  rw [holdOp, if_neg (by rw [h]; decide), if_neg hne]

theorem holdOp_status (w : Word) (s : State) : holdOp w (.read .word 0x0004) s = .next (pollStatus w s) := rfl

/-- Settles O23: `holdOp` while `BUSY` is 1, and the oldest held transaction once it has fallen. -/
theorem busyPortHoldsTransactions : Obligations.BusyPortHoldsTransactions := by
  refine ⟨fun s w op rest hw hi hwf hne => ?_, fun s op ops hn hh hwf => ?_⟩
  · rw [step_port_of_busy hw hi, holdOp_of_ne_status hwf hne]
  · rw [step_of_held hn hh, completeOp_of_wellFormed hwf]

/-- The head of what is left of a list is one of its entries, or the default. -/
theorem headD_drop_mem_or_eq {α : Type} (l : List α) (n : Nat) (d : α) :
    (l.drop n).headD d ∈ l ∨ (l.drop n).headD d = d := by
  cases h : l.drop n with
  | nil => exact Or.inr rfl
  | cons a as => exact Or.inl (List.mem_of_mem_drop (h ▸ List.mem_cons_self))

/-- Settles O24: the answer is an entry of the trace of valid bits, at a place a free value picks. -/
theorem statusReadWhileBusy : Obligations.StatusReadWhileBusy := by
  intro s w rest hw hi
  exact ⟨_, _, (step_port_of_busy hw hi).trans (holdOp_status w _), headD_drop_mem_or_eq _ _ _, rfl⟩

/-- A transaction is inside the protocol exactly when it accesses an aligned word of the window (10_state.md R42). -/
theorem wellFormed_iff (op : PortOp) :
    op.wellFormed = true ↔
      ∃ off, off % 4 = 0 ∧ off < 0x8000 ∧ (op = .read .word off ∨ ∃ v, op = .write .word off v) := by
  cases op <;> simp [PortOp.wellFormed, portAddrWellFormed] <;> tauto

/-- Settles O26: an access outside the protocol is not well formed, and both ports refuse it. -/
theorem portProtocolIsEnforced : Obligations.PortProtocolIsEnforced := by
  intro s op rest h hi hout
  have hwf : op.wellFormed = false := by
    rw [← Bool.not_eq_true, wellFormed_iff]
    rintro ⟨off, halign, hlt, hop⟩
    rcases hout .word off hop with hsize | hoff
    · exact hsize rfl
    · omega
  obtain hn | ⟨w, hw⟩ := Option.eq_none_or_eq_some s.running
  · rw [step_port_of_idle hn (h.resolve_left (not_not_intro hn)) hi, completeOp_of_not_wellFormed hwf]
  · rw [step_port_of_busy hw hi, holdOp_of_not_wellFormed hwf]

theorem acceptCommand_of_decode {w : Word} {i : Instr} (hd : decode w = some i) (s : State) :
    acceptCommand w s = { s with running := some w, progress := 0 } := by
  simp only [acceptCommand, hd]

/-- Settles O6: the write completes at once, and what it does is accept the command. -/
theorem cmdWriteStartsCommand : Obligations.CmdWriteStartsCommand := by
  intro s w i rest hn hh hi hd
  rw [step_port_of_idle hn hh hi, completeOp_of_wellFormed rfl]
  change Host.Outcome.next (answer .done (acceptCommand w _)) = _
  rw [acceptCommand_of_decode hd]
  rfl

theorem guardedRead_snd_replies (valid : Bool) (v : Word) (s : State) : (guardedRead valid v s).2.replies = s.replies := by
  cases valid <;> rfl

/-- A register read gives the host no answer of its own. -/
@[simp] theorem regRead_snd_replies (off : Nat) (s : State) : (regRead off s).2.replies = s.replies := by
  unfold regRead
  split
  case h_9 t c i _ =>
    cases t with
    | lut => rfl
    | cnt | hist | cdf | ref => exact guardedRead_snd_replies _ _ s
  all_goals rfl

/-- A register write gives the host no answer of its own. -/
@[simp] theorem regWrite_replies (off : Nat) (v : Word) (s : State) : (regWrite off v s).replies = s.replies := by
  unfold regWrite
  split
  case h_1 => unfold acceptCommand; split <;> rfl
  case h_9 t c i _ => cases t <;> rfl
  all_goals rfl

/-- An operation that gives no answer of its own is followed by the one answer of its transaction. -/
theorem answer_of_replies_eq {s t : State} (h : t.replies = s.replies) (r : Reply) :
    answer r t = { t with replies := s.replies ++ [r] } := by
  rw [answer, h]

/-- Settles O25: an idle block performs the transaction, and a register's effect leaves the list of answers alone. -/
theorem idlePortCompletesAtOnce : Obligations.IdlePortCompletesAtOnce := by
  constructor
  · intro s off rest hn hh hi halign hlt
    refine ⟨(regRead off { s with inbox := rest }).1, (regRead off { s with inbox := rest }).2, rfl, ?_⟩
    rw [step_port_of_idle hn hh hi, completeOp_of_wellFormed ((wellFormed_iff _).mpr ⟨off, halign, hlt, Or.inl rfl⟩)]
    exact congrArg Host.Outcome.next (answer_of_replies_eq (regRead_snd_replies off { s with inbox := rest }) _)
  · intro s off v rest hn hh hi halign hlt
    refine ⟨_, rfl, ?_⟩
    rw [step_port_of_idle hn hh hi,
      completeOp_of_wellFormed ((wellFormed_iff _).mpr ⟨off, halign, hlt, Or.inr ⟨v, rfl⟩⟩)]
    exact congrArg Host.Outcome.next (answer_of_replies_eq (regWrite_replies off v { s with inbox := rest }) _)

/-- A reset that cuts off no `XFORM` leaves frame memory as it was (70_reset_and_hazards.md R180). -/
theorem hostReset_of_no_xform {s : State} (h : ∀ w, s.running = some w → decode w ≠ some .xform) :
    hostReset s = .next (resetBlock s.mem s) := by
  have hx : s.running.bind decode ≠ some .xform := by
    cases hw : s.running with
    | none => simp
    | some w => exact h w hw
  unfold hostReset
  split
  · next hrun => exact absurd hrun hx
  all_goals rfl

@[simp] theorem toNat_entry_identityLut (c : Fin 3) (i : Fin 256) : (entry identityLut c i).toNat = i.val := by
  simp [identityLut]

/-- Settles O1: the step is that reset, and each register of the reset state is a field of it. -/
theorem resetStateOfTheBlock : Obligations.ResetStateOfTheBlock := by
  intro s rest h hi hx
  refine ⟨_, (step_reset h hi).trans (hostReset_of_no_xform hx), ?_⟩
  simp [status, busy, validBits, statusWord, errlogWord]

end Sys2Proof.Machine
end

section
/-! The registers and tables as the window shows them (10_state.md R24 to R39, R41). -/

namespace Sys2Proof.Machine

/-- Settles O29: the map of the window names both registers. -/
theorem commandAndPixelCountRegisters : Obligations.CommandAndPixelCountRegisters :=
  fun _ _ => ⟨rfl, rfl, rfl⟩

/-- The low 16 bits of a word, zero-extended: what `WIDTH` and `HEIGHT` read back (10_state.md R29, R30). -/
theorem setWidth_extractLsb'_16 (v : Word) : (v.extractLsb' 0 16).setWidth 32 = v &&& 0x0000FFFF := by
  apply BitVec.eq_of_toNat_eq
  have hmask : v.toNat &&& 0xFFFF = v.toNat % 2 ^ 16 := Nat.and_two_pow_sub_one_eq_mod v.toNat 16
  have hlt : v.toNat % 2 ^ 16 < 2 ^ 32 := by omega
  simp only [BitVec.toNat_setWidth, BitVec.extractLsb'_toNat, BitVec.toNat_and, Nat.shiftRight_zero]
  rw [Nat.mod_eq_of_lt hlt]
  exact hmask.symm

/-- Settles O27: each offset is its register's, and a dimension keeps the low 16 bits. -/
theorem operandRegistersReadBack : Obligations.OperandRegistersReadBack :=
  fun _ v => ⟨rfl, rfl, setWidth_extractLsb'_16 v, setWidth_extractLsb'_16 v, rfl, rfl, rfl, rfl⟩

/-- `STATUS` bit by bit (10_state.md R26). -/
theorem statusWord_getLsbD (isBusy : Bool) (err : BitVec 4) (v : ValidBits) (n : Nat) :
    (statusWord isBusy err v).getLsbD n =
      if n = 0 then isBusy else if n < 4 then false else if n < 8 then err.getLsbD (n - 4)
      else if n = 8 then v.1 else if n = 9 then v.2.1 else if n = 10 then v.2.2 else false := by
  simp only [statusWord, BitVec.getLsbD_setWidth, BitVec.getLsbD_append, BitVec.getLsbD_ofBool, BitVec.getLsbD_zero]
  rcases Nat.lt_or_ge n 11 with hlt | hge
  · interval_cases n <;> simp
  · grind

/-- Settles O28: each field of `STATUS` is read off its bits. -/
theorem statusLayout : Obligations.StatusLayout := by
  intro s v
  have hread : regRead 0x0004 s = (statusWord (busy s) s.err (validBits s), s) := rfl
  rw [hread]
  refine ⟨rfl, rfl, statusWord_getLsbD _ _ _ 0, ?_, ?_, statusWord_getLsbD _ _ _ 8, statusWord_getLsbD _ _ _ 9,
    statusWord_getLsbD _ _ _ 10, ?_⟩
  all_goals
    refine BitVec.eq_of_getLsbD_eq fun i hi => ?_
    rw [BitVec.getLsbD_extractLsb', statusWord_getLsbD]
    grind

/-- `ERRLOG` bit by bit (10_state.md R32). -/
theorem errlogWord_getLsbD (e : BitVec 8) (n : Nat) :
    (errlogWord e).getLsbD n = (decide (1 ≤ n ∧ n ≤ 8) && e.getLsbD (n - 1)) := by
  simp only [errlogWord, BitVec.getLsbD_append, BitVec.getLsbD_zero]
  cases n with
  | zero => simp
  | succ n => by_cases hn : n < 8 <;> simp [hn]

theorem errlogClear_getLsbD (e : BitVec 8) (v : Word) (n : Nat) :
    (errlogClear e v).getLsbD n = (e.getLsbD n && !v.getLsbD (n + 1)) := by
  by_cases hn : n < 8
  · simp [errlogClear, hn, Nat.add_comm]
  · simp [BitVec.getLsbD_of_ge _ n (Nat.le_of_not_lt hn)]

/-- Settles O30: bit `n` of the register is bit `n - 1` of the field, and the write clears it where `v` has a 1. -/
theorem errlogIsWriteOneToClear : Obligations.ErrlogIsWriteOneToClear := by
  intro s v n
  have hread : ∀ u : State, (regRead 0x001C u).1 = errlogWord u.errlog := fun _ => rfl
  have hwrite : regWrite 0x001C v s = { s with errlog := errlogClear s.errlog v } := rfl
  rw [hwrite, hread, hread, errlogWord_getLsbD, errlogWord_getLsbD]
  refine ⟨?_, fun h => ?_, rfl⟩
  · by_cases hn : 1 ≤ n ∧ n ≤ 8
    · rw [errlogClear_getLsbD, Nat.sub_add_cancel hn.1]
      simp [Bool.and_assoc]
    · simp [hn]
  · simp only [Bool.and_eq_true, decide_eq_true_eq] at h
    exact h.1

/-- Past the third channel a table's window is reserved (10_state.md R39). -/
theorem tableAddr_past_channels {t : TableName} {off : Nat} (h : tableBase t + 0xC00 ≤ off) :
    tableAddr t off = .reserved := dif_neg (by omega)

/-- The map of the window gives each table 4 KiB (10_state.md R24). -/
theorem regAddr_eq_tableAddr (t : TableName) {off : Nat} (hlo : tableBase t ≤ off) (hhi : off < tableBase t + 0x1000) :
    regAddr off = tableAddr t off := by
  unfold regAddr
  cases t <;> simp only [tableBase] at hlo hhi
  case cnt => rw [if_neg (by omega), if_pos (by omega)]
  case hist => rw [if_neg (by omega), if_neg (by omega), if_pos (by omega)]
  case cdf => rw [if_neg (by omega), if_neg (by omega), if_neg (by omega), if_pos (by omega)]
  case ref => rw [if_neg (by omega), if_neg (by omega), if_neg (by omega), if_neg (by omega), if_pos (by omega)]
  case lut =>
    rw [if_neg (by omega), if_neg (by omega), if_neg (by omega), if_neg (by omega), if_neg (by omega), if_pos (by omega)]

theorem regAddr_table_tail (t : TableName) {off : Nat} (hlo : tableBase t + 0xC00 ≤ off)
    (hhi : off < tableBase t + 0x1000) : regAddr off = .reserved := by
  rw [regAddr_eq_tableAddr t (by omega) hhi, tableAddr_past_channels hlo]

/-- Between the named registers and the tables the window is reserved (10_state.md R24). -/
theorem regAddr_past_registers {off : Nat} (hlo : 0x0020 ≤ off) (hhi : off < 0x1000) : regAddr off = .reserved := by
  unfold regAddr
  rw [if_pos hhi]
  split
  case h_9 => rfl
  all_goals omega

/-- Above the tables the window is reserved (10_state.md R24). -/
theorem regAddr_past_tables {off : Nat} (h : 0x6000 ≤ off) : regAddr off = .reserved := by
  unfold regAddr
  rw [if_neg (by omega), if_neg (by omega), if_neg (by omega), if_neg (by omega), if_neg (by omega),
    if_neg (by omega)]

theorem regRead_reserved {off : Nat} (h : regAddr off = .reserved) (s : State) : regRead off s = (0, s) := by
  rw [regRead, h]

theorem regWrite_reserved {off : Nat} (h : regAddr off = .reserved) (v : Word) (s : State) : regWrite off v s = s := by
  rw [regWrite, h]

/-- Settles O31: each of the six ranges is reserved in the map of the window. -/
theorem reservedOffsetsAreInert : Obligations.ReservedOffsetsAreInert := by
  intro s v off _ hoff
  have hres : regAddr off = .reserved := by
    rcases hoff with ⟨hlo, hhi⟩ | ⟨hlo, hhi⟩ | ⟨hlo, hhi⟩ | ⟨hlo, hhi⟩ | ⟨hlo, hhi⟩ | ⟨hlo, hhi⟩
    · exact regAddr_past_registers hlo hhi
    · exact regAddr_table_tail .cnt hlo hhi
    · exact regAddr_table_tail .hist hlo hhi
    · exact regAddr_table_tail .cdf hlo hhi
    · exact regAddr_table_tail .ref hlo hhi
    · rcases Nat.lt_or_ge off 0x6000 with hlt | hge
      · exact regAddr_table_tail .lut hlo hlt
      · exact regAddr_past_tables hge
  exact ⟨regRead_reserved hres s, regWrite_reserved hres v s⟩

/-- The valid bit that guards a table; `L` is always readable (10_state.md R34 to R38). -/
def tableValid (t : TableName) (s : State) : Bool :=
  match t with
  | .cnt | .hist => s.hvalid
  | .cdf => s.cvalid
  | .ref => s.rvalid
  | .lut => true

/-- The word a table entry reads as under its valid bit. -/
def entryWord (t : TableName) (c : Fin 3) (i : Fin 256) (s : State) : Word :=
  match t with
  | .cnt => entry s.cnt c i
  | .hist => entry s.hist c i
  | .cdf => entry s.cdf c i
  | .ref => entry s.ref c i
  | .lut => (entry s.lut c i).setWidth 32

theorem guardedRead_of_valid (v : Word) (s : State) : guardedRead true v s = (v, s) := rfl

theorem guardedRead_of_invalid (v : Word) (s : State) : guardedRead false v s = (Config.freeWord s.draws, drawn s) := rfl

/-- A read of any table is a read guarded by that table's valid bit (10_state.md R41). -/
theorem readEntry_eq (t : TableName) (c : Fin 3) (i : Fin 256) (s : State) :
    readEntry t c i s = guardedRead (tableValid t s) (entryWord t c i s) s := by
  cases t <;> rfl

theorem regRead_of_valid {t : TableName} {s : State} (h : tableValid t s = true) (c : Fin 3) (i : Fin 256) :
    regRead (entryOffset t c i) s = (entryWord t c i s, s) := by
  rw [regRead_entryOffset, readEntry_eq, h, guardedRead_of_valid]

theorem regRead_of_invalid {t : TableName} {s : State} (h : tableValid t s = false) (c : Fin 3) (i : Fin 256) :
    regRead (entryOffset t c i) s = (Config.freeWord s.draws, drawn s) := by
  rw [regRead_entryOffset, readEntry_eq, h, guardedRead_of_invalid]

/-- Settles O32: a read of a valid table's window, table by table. -/
theorem tableWindowsShowTheTables : Obligations.TableWindowsShowTheTables := fun _ c i =>
  ⟨fun hv => ⟨regRead_of_valid (t := .cnt) hv c i, regRead_of_valid (t := .hist) hv c i⟩,
    fun hv => regRead_of_valid (t := .cdf) hv c i, fun hv => regRead_of_valid (t := .ref) hv c i,
    regRead_of_valid (t := .lut) rfl c i⟩

/-- Settles O33: a read of an invalid table's window, table by table. -/
theorem invalidTableReadIsUnspecified : Obligations.InvalidTableReadIsUnspecified := fun _ c i =>
  ⟨fun hv => ⟨regRead_of_invalid (t := .cnt) hv c i, regRead_of_invalid (t := .hist) hv c i⟩,
    fun hv => regRead_of_invalid (t := .cdf) hv c i, fun hv => regRead_of_invalid (t := .ref) hv c i⟩

/-- Settles O34: a write through the window is `writeEntry`, which updates `L` alone. -/
theorem lutWindowStoresLowByte : Obligations.LutWindowStoresLowByte := by
  intro s v c i
  refine ⟨⟨_, regWrite_entryOffset .lut c i v s, ?_, fun c' i' hne => entry_setEntry_other s.lut c c' i i' _ hne, rfl⟩,
    regWrite_entryOffset .cnt c i v s, regWrite_entryOffset .hist c i v s, regWrite_entryOffset .cdf c i v s,
    regWrite_entryOffset .ref c i v s⟩
  change (entry (setEntry s.lut c i (v.extractLsb' 0 8)) c i).toNat = _
  rw [entry_setEntry_same, BitVec.extractLsb'_toNat]
  rfl

end Sys2Proof.Machine
end

section
/-! Frame memory as its users find it (20_memory.md): what the host places in it the host reads back, and the accesses
that are refused, a racing one of the host and one of a command to memory that is not backed. -/

namespace Sys2Proof.Machine

/-- A run of bytes written inside the 2^32 bytes is the run read back. -/
theorem Memory.readBytes_writeBytes {m : Memory} (h : m.wf = true) {a : Nat} (vs : List Byte)
    (ha : a + vs.length ≤ Config.memSize) : (m.writeBytes a vs).readBytes a vs.length = vs := by
  induction vs generalizing m a with
  | nil => rfl
  | cons v vs ih =>
    simp only [List.length_cons] at ha
    have hhead : ((m.write a v).writeBytes (a + 1) vs).read a = v := by
      rw [Memory.read_writeBytes_other _ _ _ _ (Or.inl (Nat.lt_succ_self a)), Memory.read_write_same h]
    have htail := ih (Memory.wf_write h (a := a) (by omega) v) (a := a + 1) (by omega)
    rw [Memory.writeBytes, List.length_cons, Memory.readBytes, hhead, htail]

/-- Where busy and idle blocks act alike, the step is that act, unless an idle block has held transactions to complete. -/
theorem step_of_served {s : State} {r : Result} (h : s.running ≠ none ∨ s.held = []) (hbusy : ∀ w, busyStep w s = r)
    (hidle : idleStep s = r) : step s = r := by
  obtain hn | ⟨w, hw⟩ := Option.eq_none_or_eq_some s.running
  · rw [step_of_idle hn (h.resolve_left (not_not_intro hn)), hidle]
  · rw [step_of_busy hw, hbusy]

/-- A host write that arrives is served at once, beside a running command as well. -/
theorem step_memWrite {s : State} {a : Word} {vs : List Byte} {rest : List Input} (h : s.running ≠ none ∨ s.held = [])
    (hi : s.inbox = .memWrite a vs :: rest) : step s = hostWrite a vs { s with inbox := rest } :=
  step_of_served h (fun w => by rw [busyStep, hi, taken_of_cons hi]) (by rw [idleStep, hi, taken_of_cons hi])

/-- A host read that arrives is served at once, beside a running command as well. -/
theorem step_memRead {s : State} {a : Word} {n : Nat} {rest : List Input} (h : s.running ≠ none ∨ s.held = [])
    (hi : s.inbox = .memRead a n :: rest) : step s = hostRead a n { s with inbox := rest } :=
  step_of_served h (fun w => by rw [busyStep, hi, taken_of_cons hi]) (by rw [idleStep, hi, taken_of_cons hi])

theorem pastTop_of_le {r : Span} (h : r.base + r.len ≤ Config.memSize) : r.pastTop = false :=
  decide_eq_false (Nat.not_lt.mpr h)

/-- Inside backed memory a data race is all that stops a host write. -/
theorem hostWrite_of_backed {a : Word} {vs : List Byte} {s : State} (htop : a.toNat + vs.length ≤ 2 ^ 32)
    (hb : meetsKind s.platform .unbacked [⟨a.toNat, vs.length⟩] = false) :
    hostWrite a vs s = if racesWrite s ⟨a.toNat, vs.length⟩ then .refused .dataRace
      else .next (answer .done { s with mem := s.mem.writeBytes a.toNat vs }) := by
  simp [hostWrite, pastTop_of_le (r := ⟨a.toNat, vs.length⟩) htop, hb]

/-- Inside backed memory a data race is all that stops a host read. -/
theorem hostRead_of_backed {a : Word} {n : Nat} {s : State} (htop : a.toNat + n ≤ 2 ^ 32)
    (hb : meetsKind s.platform .unbacked [⟨a.toNat, n⟩] = false) :
    hostRead a n s = if racesRead s ⟨a.toNat, n⟩ then .refused .dataRace
      else .next (answer (.bytes (s.mem.readBytes a.toNat n)) s) := by
  simp [hostRead, pastTop_of_le (r := ⟨a.toNat, n⟩) htop, hb]

theorem racesWrite_of_idle {s : State} (h : s.running = none) (p : Span) : racesWrite s p = false := by
  simp [racesWrite, h]

theorem racesRead_of_idle {s : State} (h : s.running = none) (p : Span) : racesRead s p = false := by
  simp [racesRead, h]

theorem racesWrite_of_hist {s : State} {w : Word} (hw : s.running = some w) (hd : decode w = some .hist) (p : Span) :
    racesWrite s p = p.meets (srcSpan s) := by
  simp [racesWrite, hw, hd]

theorem racesWrite_of_xform {s : State} {w : Word} (hw : s.running = some w) (hd : decode w = some .xform)
    (p : Span) : racesWrite s p = (p.meets (srcSpan s) || p.meets (dstSpan s)) := by
  simp [racesWrite, hw, hd]

theorem racesRead_of_xform {s : State} {w : Word} (hw : s.running = some w) (hd : decode w = some .xform) (p : Span) :
    racesRead s p = p.meets (dstSpan s) := by
  simp [racesRead, hw, hd]

/-- A host write to backed memory completes unless it races with the running command. -/
theorem step_memWrite_of_backed {s : State} {a : Word} {vs : List Byte} {rest : List Input}
    (h : s.running ≠ none ∨ s.held = []) (hi : s.inbox = .memWrite a vs :: rest) (htop : a.toNat + vs.length ≤ 2 ^ 32)
    (hb : meetsKind s.platform .unbacked [⟨a.toNat, vs.length⟩] = false) :
    step s = if racesWrite s ⟨a.toNat, vs.length⟩ then .refused .dataRace
      else .next (answer .done { s with inbox := rest, mem := s.mem.writeBytes a.toNat vs }) := by
  rw [step_memWrite h hi]
  exact hostWrite_of_backed htop hb

/-- A host read of backed memory completes unless it races with the running command. -/
theorem step_memRead_of_backed {s : State} {a : Word} {n : Nat} {rest : List Input}
    (h : s.running ≠ none ∨ s.held = []) (hi : s.inbox = .memRead a n :: rest) (htop : a.toNat + n ≤ 2 ^ 32)
    (hb : meetsKind s.platform .unbacked [⟨a.toNat, n⟩] = false) :
    step s = if racesRead s ⟨a.toNat, n⟩ then .refused .dataRace
      else .next (answer (.bytes (s.mem.readBytes a.toNat n)) { s with inbox := rest }) := by
  rw [step_memRead h hi]
  exact hostRead_of_backed htop hb

/-- Nothing races with an idle block, so a host write to backed memory completes. -/
theorem step_memWrite_of_idle {s : State} {a : Word} {vs : List Byte} {rest : List Input} (hn : s.running = none)
    (hh : s.held = []) (hi : s.inbox = .memWrite a vs :: rest) (htop : a.toNat + vs.length ≤ 2 ^ 32)
    (hb : meetsKind s.platform .unbacked [⟨a.toNat, vs.length⟩] = false) :
    step s = .next (answer .done { s with inbox := rest, mem := s.mem.writeBytes a.toNat vs }) := by
  rw [step_memWrite_of_backed (Or.inr hh) hi htop hb, racesWrite_of_idle hn, if_neg Bool.false_ne_true]

/-- Nothing races with an idle block, so a host read of backed memory completes. -/
theorem step_memRead_of_idle {s : State} {a : Word} {n : Nat} {rest : List Input} (hn : s.running = none)
    (hh : s.held = []) (hi : s.inbox = .memRead a n :: rest) (htop : a.toNat + n ≤ 2 ^ 32)
    (hb : meetsKind s.platform .unbacked [⟨a.toNat, n⟩] = false) :
    step s = .next (answer (.bytes (s.mem.readBytes a.toNat n)) { s with inbox := rest }) := by
  rw [step_memRead_of_backed (Or.inr hh) hi htop hb, racesRead_of_idle hn, if_neg Bool.false_ne_true]

/-- Settles O37: both accesses complete, and the run of bytes written is the run read back. -/
theorem hostFrameIsRemembered : Obligations.HostFrameIsRemembered := by
  intro s a vs rest hwf hn hh hi htop hb
  refine ⟨_, _, step_memWrite_of_idle hn hh hi htop hb, step_memRead_of_idle hn hh rfl htop hb, ?_, rfl,
    fun b hout => Memory.read_writeBytes_other s.mem a.toNat b vs hout⟩
  have hread : (s.mem.writeBytes a.toNat vs).readBytes a.toNat vs.length = vs := Memory.readBytes_writeBytes hwf vs htop
  simp only [answer, hread, List.append_assoc, List.cons_append, List.nil_append]

/-- Settles O36: each of the accesses named is a race with the command that runs. -/
theorem dataRacesAreRefused : Obligations.DataRacesAreRefused := by
  constructor
  · intro s w i a vs rest hw hd hi htop hb hmeets
    have hrace : racesWrite s ⟨a.toNat, vs.length⟩ = true := by
      rcases hmeets with ⟨rfl | rfl, hsrc⟩ | ⟨rfl, hdst⟩
      · rw [racesWrite_of_hist hw hd, hsrc]
      · rw [racesWrite_of_xform hw hd, hsrc, Bool.true_or]
      · rw [racesWrite_of_xform hw hd, hdst, Bool.or_true]
    rw [step_memWrite_of_backed (Or.inl (by simp [hw])) hi htop hb, if_pos hrace]
  · intro s w a n rest hw hd hi htop hb hmeets
    rw [step_memRead_of_backed (Or.inl (by simp [hw])) hi htop hb, racesRead_of_xform hw hd, if_pos hmeets]

/-- A `HIST` has no error exactly when its frame has pixels and its source does not pass the top of memory. -/
theorem firstError_hist_eq_zero_iff (s : State) :
    firstError .hist s = 0 ↔ pixelCount s ≠ 0 ∧ (srcSpan s).pastTop = false := by
  rw [← Bool.not_eq_true, srcSpan_pastTop_iff, pixelCount, firstError]
  split_ifs with hempty hrange
  · exact iff_of_false (by decide) fun hok => hok.1 hempty
  · exact iff_of_false (by decide) fun hok => hok.2 hrange
  · exact iff_of_true rfl ⟨hempty, hrange⟩

/-- An `XFORM` with pixels has no error exactly when it reaches its work. -/
theorem firstError_xform_eq_zero_iff {s : State} (h : pixelCount s ≠ 0) :
    firstError .xform s = 0 ↔
      (srcSpan s).pastTop = false ∧ (dstSpan s).pastTop = false ∧ partialOverlap s = false := by
  rw [← and_assoc, ← Bool.or_eq_false_iff, firstError, if_neg (show s.width.toNat * s.height.toNat ≠ 0 from h)]
  simp only [← Bool.not_eq_true, Bool.or_eq_true, srcSpan_pastTop_iff, dstSpan_pastTop_iff, partialOverlap_iff,
    ne_comm (a := s.src)]
  split_ifs with hrange hover
  · exact iff_of_false (by decide) fun hok => hok.1 hrange
  · exact iff_of_false (by decide) fun hok => hok.2 hover
  · exact iff_of_true rfl ⟨hrange, hover⟩

/-- A `HIST` without an error is its access to the source (40_histogram.md R100). -/
theorem exec_hist_of_firstError {s : State} (h : firstError .hist s = 0) :
    exec .hist s = accessing .hist (commandSpans .hist s) (clearFrameFlags s) (histDone s) := by
  obtain ⟨hpixels, hsrc⟩ := (firstError_hist_eq_zero_iff s).mp h
  simp [exec, execHist, commandSpans, hpixels, hsrc]

/-- An `XFORM` without an error is its access to source and destination (43_transform.md R130). -/
theorem exec_xform_of_firstError {s : State} (hpixels : pixelCount s ≠ 0) (h : firstError .xform s = 0) :
    exec .xform s = accessing .xform (commandSpans .xform s) s (xformDone s) := by
  obtain ⟨hsrc, hdst, hover⟩ := (firstError_xform_eq_zero_iff hpixels).mp h
  simp [exec, execXform, commandSpans, hpixels, hsrc, hdst, hover]

theorem accessing_unbacked {i : Instr} {spans : List Span} {begun done : State}
    (h : portReply begun.platform spans = .unbacked) : accessing i spans begun done = .refused .unbackedFrameMemory := by
  simp only [accessing, h]

/-- Settles O18: a command that passes its checks is its access to memory, and unbacked memory refuses the access. -/
theorem unbackedMemoryIsRefused : Obligations.UnbackedMemoryIsRefused := by
  rintro i s (rfl | rfl) hpixels hnone hreply
  · exact (exec_hist_of_firstError hnone).trans (accessing_unbacked hreply)
  · exact (exec_xform_of_firstError hpixels hnone).trans (accessing_unbacked hreply)

end Sys2Proof.Machine
end

section
/-! Decoding and encoding are inverse, field by field (30_encoding.md R86 to R89). -/

namespace Sys2Proof

/-- The two fields are the whole word (30_encoding.md R86). -/
theorem toWord_splitWord (w : Word) : (splitWord w).toWord = w := by
  rw [splitWord, CommandWord.toWord, BitVec.extractLsb'_append_extractLsb'_eq_extractLsb' (by rfl)]
  exact BitVec.extractLsb'_eq_self

theorem splitWord_toWord (c : CommandWord) : splitWord c.toWord = c := by
  rw [CommandWord.toWord, splitWord, BitVec.extractLsb'_append_eq_left, BitVec.extractLsb'_append_eq_right]

theorem splitWord_eq_iff (w : Word) (c : CommandWord) : splitWord w = c ↔ w = c.toWord :=
  ⟨fun h => h ▸ (toWord_splitWord w).symm, fun h => h ▸ splitWord_toWord c⟩

theorem decodeOpcode_opcode (i : Instr) : decodeOpcode i.opcode = some i := by
  cases i <;> rfl

theorem decodeOpcode_eq_some_iff (op : BitVec 8) (i : Instr) : decodeOpcode op = some i ↔ op = i.opcode := by
  refine ⟨fun h => BitVec.eq_of_toNat_eq ?_, fun h => h ▸ decodeOpcode_opcode i⟩
  unfold decodeOpcode at h
  split at h <;> cases h <;> assumption

theorem decodeFields_eq_some_iff (c : CommandWord) (i : Instr) :
    decodeFields c = some i ↔ c = i.commandWord := by
  rw [decodeFields, Option.ite_none_right_eq_some, decodeOpcode_eq_some_iff, Instr.commandWord, CommandWord.mk.injEq]

/-- A word decodes to a command exactly when it is that command's word (30_encoding.md R88). -/
theorem decode_eq_some_iff (w : Word) (i : Instr) : decode w = some i ↔ w = encode i := by
  rw [decode, decodeFields_eq_some_iff, splitWord_eq_iff, encode]

theorem decode_encode (i : Instr) : decode (encode i) = some i :=
  (decode_eq_some_iff (encode i) i).mpr rfl

/-- A word is illegal exactly when it is no command's word (30_encoding.md R89). -/
theorem decode_eq_none_iff (w : Word) : decode w = none ↔ ∀ i, w ≠ encode i := by
  simp only [Option.eq_none_iff_forall_ne_some, ne_eq, decode_eq_some_iff]

theorem toNat_encode_mem (i : Instr) : 1 ≤ (encode i).toNat ∧ (encode i).toNat ≤ 5 := by
  cases i <;> decide

/-- The words 1 to 5 are the words of the commands (30_encoding.md R88). -/
theorem exists_eq_encode_iff (w : Word) : (∃ i, w = encode i) ↔ 1 ≤ w.toNat ∧ w.toNat ≤ 5 := by
  constructor
  · rintro ⟨i, rfl⟩
    exact toNat_encode_mem i
  · rintro ⟨hlow, hhigh⟩
    generalize hn : w.toNat = n at hlow hhigh
    interval_cases n
    · exact ⟨.hist, BitVec.eq_of_toNat_eq hn⟩
    · exact ⟨.cdf, BitVec.eq_of_toNat_eq hn⟩
    · exact ⟨.setref, BitVec.eq_of_toNat_eq hn⟩
    · exact ⟨.lutgen, BitVec.eq_of_toNat_eq hn⟩
    · exact ⟨.xform, BitVec.eq_of_toNat_eq hn⟩

theorem instr_wellFormed (i : Instr) : i.wellFormed = true := by
  cases i <;> rfl

/-- The illegal words are those outside 1 to 5 (30_encoding.md R88, R89). -/
theorem decode_eq_none_iff_toNat (w : Word) : decode w = none ↔ ¬(1 ≤ w.toNat ∧ w.toNat ≤ 5) := by
  rw [decode_eq_none_iff, ← exists_eq_encode_iff, not_exists]

/-- Settles O4: a word decodes to a command exactly when it is that command's word, and those words are 1 to 5. -/
theorem decodeEncodeAgree : Obligations.DecodeEncodeAgree :=
  ⟨fun i => ⟨instr_wellFormed i, decode_encode i⟩, rfl, rfl, rfl, rfl, rfl,
    fun w i hd => ((decode_eq_some_iff w i).mp hd).symm, decode_eq_none_iff_toNat⟩

/-- Settles O3: five of the words are the commands' own, and the others lie outside 1 to 5. -/
theorem commandWordsDecode : Obligations.CommandWordsDecode := by
  refine ⟨decode_hist, decode_cdf, decode_setref, decode_lutgen, decode_xform, ?_, ?_, ?_, ?_, ?_, ?_⟩
  all_goals
    rw [decode_eq_none_iff_toNat]
    decide

end Sys2Proof
end

section
/-! `HIST` on every state (40_histogram.md R100), its counts (R102), and the extreme quotients (R103). -/

namespace Sys2Proof.Machine

/-- A `HIST` of no pixels ends with `E_EMPTY` (40_histogram.md R100). -/
theorem exec_hist_of_empty {s : State} (h : pixelCount s = 0) :
    exec .hist s = .next (raise .empty (clearFrameFlags s)) :=
  if_pos h

/-- A `HIST` of pixels past the top of memory ends with `E_RANGE` (40_histogram.md R100). -/
theorem exec_hist_of_pastTop {s : State} (hpixels : pixelCount s ≠ 0) (htop : (srcSpan s).pastTop = true) :
    exec .hist s = .next (raise .range (clearFrameFlags s)) :=
  (if_neg hpixels).trans (if_pos htop)

/-- A `HIST` without an error completes on plain memory (40_histogram.md R100). -/
theorem exec_hist_of_plain {s : State} (h : firstError .hist s = 0) (hplain : OnPlainMemory .hist s) :
    exec .hist s = .next (histDone s) :=
  (exec_hist_of_firstError h).trans (accessing_plain hplain)

/-- Each count of a completed `HIST` is the number of samples of its channel and value (40_histogram.md R100). -/
theorem toNat_entry_histDone_cnt (s : State) (c : Fin 3) (i : Fin 256) :
    (entry (histDone s).cnt c i).toNat = samplesEqual s.mem s.src.toNat (frameBytes s) c i :=
  toNat_entry_countBytes s.mem (srcSpan s) (pixelCount_lt s) c i

/-- Each entry of `H` after a completed `HIST` is the quotient of its count by the pixel count (40_histogram.md R103). -/
theorem entry_histDone_hist (s : State) (c : Fin 3) (i : Fin 256) :
    entry (histDone s).hist c i =
      binary32.div (binary32.ofNat (entry (histDone s).cnt c i).toNat) (binary32.ofNat (pixelCount s)) :=
  entry_normalise binary32 (histDone s).cnt (pixelCount s) c i

/-- `NPIX` after a completed `HIST` is the pixel count, which fits in it (40_histogram.md R100). -/
theorem toNat_histDone_npix (s : State) : (histDone s).npix.toNat = pixelCount s :=
  (BitVec.toNat_ofNat _ 32).trans (Nat.mod_eq_of_lt (pixelCount_lt s))

/-- Settles O8: the three clauses are the three ways a `HIST` on plain memory ends. -/
theorem histCountsAndNormalises : Obligations.HistCountsAndNormalises := by
  intro s
  refine ⟨fun hempty => exec_hist_of_empty hempty,
    fun hpixels hrange => exec_hist_of_pastTop hpixels ((srcSpan_pastTop_iff s).mpr hrange),
    fun hpixels hfits hplain => ?_⟩
  have hnone : firstError .hist s = 0 := (firstError_hist_eq_zero_iff s).mpr ⟨hpixels, pastTop_of_le hfits⟩
  exact ⟨histDone s, exec_hist_of_plain hnone hplain, toNat_entry_histDone_cnt s, entry_histDone_hist s,
    toNat_histDone_npix s, rfl⟩

/-- Code 0 is no error's (60_exceptions.md R150). -/
theorem code_ne_zero (k : ErrKind) : k.code ≠ 0 := by
  cases k <;> decide

/-- A `HIST` that ends without an error is one that completed: its errors show in `ERR`, and a hang in `BUSY`. -/
theorem eq_histDone_of_success {s t : State} (h : exec .hist s = .next t) (hidle : t.running = none)
    (herr : t.err = 0) : t = histDone s := by
  rcases execHist_cases h with ⟨-, rfl⟩ | ⟨-, -, rfl⟩ | ⟨-, -, -, hdone⟩ | ⟨-, -, -, rfl⟩
  · exact absurd herr (code_ne_zero .empty)
  · exact absurd herr (code_ne_zero .range)
  · exact hdone
  · exact absurd hidle (by simp)

/-- Settles O9: a successful `HIST` is a completed one, whose counts the accumulators' sum gives. -/
theorem countsSumToPixelCount : Obligations.CountsSumToPixelCount := by
  intro s t h hidle herr c
  rw [eq_histDone_of_success h hidle herr]
  exact countTotal_countBytes s.mem (srcSpan s) (pixelCount_lt s) c

/-- Rounding looks at the ratio alone, not at the two numbers that give it. -/
theorem f32Round_eq_of_same_ratio {n d n' d' : Nat} (hd : 0 < d) (hd' : 0 < d') (h : n * d' = n' * d) :
    f32Round n d = f32Round n' d' :=
  le_antisymm (f32Round_mono hd hd' h.le) (f32Round_mono hd' hd h.ge)

/-- Zero divided by a stored number other than 0 is +0. -/
theorem f32Div_zero_left {a : F32} (ha : zeroOrNormal a) (h0 : f32Mag a ≠ 0) : f32Div 0 a = 0 := by
  have hround : f32Round (f32Mag 0 * 2 ^ 149) (f32Mag a) = f32Round 0 1 :=
    f32Round_eq_of_same_ratio (Nat.pos_of_ne_zero h0) one_pos (by rw [Nat.zero_mul]; decide)
  rw [f32Div_of_zeroOrNormal (Or.inl rfl) ha h0, hround]
  decide

/-- A stored number other than 0 divided by itself is exactly 1. -/
theorem f32Div_self {a : F32} (ha : zeroOrNormal a) (h0 : f32Mag a ≠ 0) : f32Div a a = 0x3F800000 := by
  have hround : f32Round (f32Mag a * 2 ^ 149) (f32Mag a) = f32Round (2 ^ 149) 1 :=
    f32Round_eq_of_same_ratio (Nat.pos_of_ne_zero h0) one_pos (by rw [Nat.mul_one, Nat.mul_comm])
  rw [f32Div_of_zeroOrNormal ha ha h0, hround]
  decide

/-- Settles O47: a positive count converts to a stored number other than 0, whatever rounding its conversion needs. -/
theorem quotientExtremes : Obligations.QuotientExtremes := by
  intro n h1 h2
  have hstored : zeroOrNormal (f32OfNat n) := zeroOrNormal_f32OfNat h2.le
  have hpos : f32Mag (f32OfNat n) ≠ 0 := by
    have hlo := (f32Mag_f32OfNat_bounds h1 h2.le).1
    omega
  have hzero : f32OfNat 0 = 0 := by decide
  exact ⟨(congrArg (f32Div · (f32OfNat n)) hzero).trans (f32Div_zero_left hstored hpos), f32Div_self hstored hpos⟩

end Sys2Proof.Machine
end

section
/-! The Reference is captured once: no step but a reset changes it (41_cdf_reference.md R114). -/

namespace Sys2Proof.Machine

/-- `t` has the Reference and the `RVALID` of `s`. -/
structure KeepsReference (s t : State) : Prop where
  ref : t.ref = s.ref
  rvalid : t.rvalid = s.rvalid

theorem KeepsReference.trans {s t u : State} (h : KeepsReference s t) (h' : KeepsReference t u) : KeepsReference s u :=
  ⟨h'.ref.trans h.ref, h'.rvalid.trans h.rvalid⟩

/-- A command issued when `RVALID` is 1 keeps the Reference: `SETREF` alone writes it, and that is then an error. -/
theorem exec_keepsReference {i : Instr} {s t : State} (hv : s.rvalid = true) (h : exec i s = .next t) :
    KeepsReference s t := by
  cases i with
  | hist =>
    rcases execHist_cases h with ⟨-, rfl⟩ | ⟨-, -, rfl⟩ | ⟨-, -, -, rfl⟩ | ⟨-, -, -, rfl⟩
    all_goals exact ⟨rfl, rfl⟩
  | cdf =>
    rcases execCdf_cases h with ⟨-, rfl⟩ | ⟨-, rfl⟩
    all_goals exact ⟨rfl, rfl⟩
  | setref =>
    rcases execSetref_cases h with ⟨-, rfl⟩ | ⟨-, -, rfl⟩ | ⟨-, hfree, -⟩
    · exact ⟨rfl, rfl⟩
    · exact ⟨rfl, rfl⟩
    · exact absurd hv (by simp [hfree])
  | lutgen =>
    rcases execLutgen_cases h with ⟨-, rfl⟩ | ⟨-, -, rfl⟩ | ⟨-, -, rfl⟩
    all_goals exact ⟨rfl, rfl⟩
  | xform =>
    rcases execXform_cases h with ⟨-, rfl⟩ | ⟨-, -, rfl⟩ | ⟨-, -, -, -, rfl⟩ |
      ⟨-, -, -, -, -, rfl⟩ | ⟨-, -, -, -, -, rfl⟩
    all_goals exact ⟨rfl, rfl⟩

theorem runWord_keepsReference {w : Word} {s t : State} (hv : s.rvalid = true) (h : runWord w s = .next t) :
    KeepsReference s t := by
  unfold runWord at h
  split at h
  · exact exec_keepsReference hv h
  · injection h with h
    exact h ▸ ⟨rfl, rfl⟩

/-- All that a register read can change is the count of free values. -/
theorem regRead_snd_cases (off : Nat) (s : State) : (regRead off s).2 = s ∨ (regRead off s).2 = drawn s := by
  unfold regRead
  split
  case h_9 t c i _ =>
    rw [readEntry_eq]
    cases tableValid t s
    · exact Or.inr rfl
    · exact Or.inl rfl
  all_goals exact Or.inl rfl

theorem acceptCommand_keepsReference (w : Word) (s : State) : KeepsReference s (acceptCommand w s) := by
  unfold acceptCommand
  split <;> exact ⟨rfl, rfl⟩

/-- No register write reaches the Reference: its window is read-only (10_state.md R37). -/
theorem regWrite_keepsReference (off : Nat) (v : Word) (s : State) : KeepsReference s (regWrite off v s) := by
  unfold regWrite
  split
  case h_1 => exact acceptCommand_keepsReference v s
  case h_9 t c i _ => cases t <;> exact ⟨rfl, rfl⟩
  all_goals exact ⟨rfl, rfl⟩

theorem performOp_keepsReference (op : PortOp) (s : State) : KeepsReference s (performOp op s) := by
  cases op with
  | read _ off =>
    rw [performOp]
    rcases regRead_snd_cases off s with h | h <;> rw [h] <;> exact ⟨rfl, rfl⟩
  | write size off v =>
    have hanswer : KeepsReference (regWrite off v s) (performOp (.write size off v) s) := ⟨rfl, rfl⟩
    exact (regWrite_keepsReference off v s).trans hanswer

/-- A step that takes no reset keeps a Reference that is set. -/
theorem step_keepsReference {s t : State} (hv : s.rvalid = true) (h : step s = .next t) (hreset : ¬TakesReset s) :
    KeepsReference s t := by
  have htaken : KeepsReference s (taken s) := ⟨rfl, rfl⟩
  cases step_cases h with
  | held op ops =>
    have hheld : KeepsReference s { s with held := ops } := ⟨rfl, rfl⟩
    exact hheld.trans (performOp_keepsReference op _)
  | idlePort op => exact htaken.trans (performOp_keepsReference op _)
  | reset _ rest hi hserved => exact absurd ⟨by rw [hi]; rfl, hserved⟩ hreset
  | run _ _ _ _ hrun => exact htaken.trans (runWord_keepsReference hv hrun)
  | idle | idleTick | memWrite | memRead | poll | hold => exact ⟨rfl, rfl⟩

/-- Settles O22: the one command that writes the Reference refuses, and nothing but a reset reaches it otherwise. -/
theorem referenceIsImmutable : Obligations.ReferenceIsImmutable := by
  intro s t hv h hreset
  obtain ⟨href, hvalid⟩ := step_keepsReference hv h hreset
  exact ⟨href, hvalid.trans hv⟩

end Sys2Proof.Machine
end

section
/-! `CDF` and `SETREF` on every state (41_cdf_reference.md R110, R113). -/

namespace Sys2Proof.Machine

theorem exec_cdf_of_noHist {s : State} (h : s.hvalid = false) : exec .cdf s = .next (raise .noHist s) := if_pos h

theorem exec_cdf_of_hist {s : State} (h : s.hvalid = true) : exec .cdf s = .next (cdfDone s) :=
  if_neg (by simp [h])

/-- Settles O10: the error, or the table whose entries the laws of the running sum give. -/
theorem cdfIntegratesLeftToRight : Obligations.CdfIntegratesLeftToRight := by
  refine fun s => ⟨exec_cdf_of_noHist, fun h => ⟨cdfDone s, exec_cdf_of_hist h, ?_, ?_, rfl⟩⟩
  · exact entry_integrate_zero binary32 s.hist
  · exact entry_integrate_succ binary32 s.hist

theorem exec_setref_of_noCdf {s : State} (h : s.cvalid = false) : exec .setref s = .next (raise .noCdf s) := if_pos h

theorem exec_setref_of_refLocked {s : State} (hc : s.cvalid = true) (hr : s.rvalid = true) :
    exec .setref s = .next (raise .refLocked s) :=
  (if_neg (by simp [hc])).trans (if_pos hr)

theorem exec_setref_of_free {s : State} (hc : s.cvalid = true) (hr : s.rvalid = false) :
    exec .setref s = .next (setrefDone s) :=
  (if_neg (by simp [hc])).trans (if_neg (by simp [hr]))

/-- Settles O11: the three clauses are the three ways a `SETREF` ends. -/
theorem setrefCapturesOnce : Obligations.SetrefCapturesOnce :=
  fun _ => ⟨exec_setref_of_noCdf, exec_setref_of_refLocked, exec_setref_of_free⟩

end Sys2Proof.Machine
end

section
/-! A valid `C` is non-decreasing (41_cdf_reference.md R111 (a)): rounding is monotone and exact on what is stored. -/

namespace Sys2Proof.Machine

/-- Rounding a stored number, already representable, gives it back. -/
theorem magPat_f32Round_f32Mag {a : F32} (h : f32Mag a ≤ 2 ^ 181) : magPat (f32Round (f32Mag a) 1) = f32Mag a := by
  refine magPat_f32Round_of_dvd ?_ h
  obtain ⟨m, k, hm, -, -, hmag⟩ := magPat_cases (a.toNat % 2 ^ 31)
  rw [f32Mag_eq_magPat, hmag]
  exact two_pow_f32Shift_dvd hm.le

/-- The sum of stored numbers never rounds below its first operand. -/
theorem f32Mag_le_f32Mag_f32Add {a b : F32} (ha : zeroOrNormal a) (hb : zeroOrNormal b) (h : f32Mag a ≤ 2 ^ 181) :
    f32Mag a ≤ f32Mag (f32Add a b) := by
  rw [f32Add_of_zeroOrNormal ha hb, f32Mag_pack_f32Round]
  calc f32Mag a = magPat (f32Round (f32Mag a) 1) := (magPat_f32Round_f32Mag h).symm
    _ ≤ magPat (f32Round (f32Mag a + f32Mag b) 1) := magPat_mono (f32Round_mono one_pos one_pos (by omega))

/-- Settles O45: each bin of a valid CDF is the sum of the bin before and a bin of the histogram. -/
theorem cdfIsNonDecreasing : Obligations.CdfIsNonDecreasing := by
  intro s hinv hc c i hi
  obtain ⟨cnt, n, h1, h2, hsum, hcdf⟩ := hinv.validCdf hc
  obtain ⟨hstored, hle⟩ := entry_integrate_storedAtMost h1 h2 hsum c i (Nat.lt_of_succ_lt hi)
  have hnext := (entry_integrate_storedAtMost h1 h2 hsum c (i + 1) hi).1
  have hbin := (entry_normalise_storedAtMost h1 h2 hsum c ⟨i + 1, hi⟩).1
  rw [hcdf, f32Units_of_zeroOrNormal hstored, f32Units_of_zeroOrNormal hnext, entry_integrate_succ, Nat.cast_le]
  exact f32Mag_le_f32Mag_f32Add hstored hbin (by omega)

end Sys2Proof.Machine
end

section
/-! The final bin of a valid `C` is near 1 (41_cdf_reference.md R111 (d)). Closeness is a bound on the ratio of two
numbers, so that the roundings of a computation are counted: one for each of the two conversions, one for the quotient,
and one for each addition. -/

namespace Sys2Proof.Machine

/-- What one rounding to 24 significant bits can make of the ratio to the exact value, either way. -/
def roundingRatio : ℚ := 2 ^ 24 / (2 ^ 24 - 1)

theorem one_le_roundingRatio : 1 ≤ roundingRatio := by norm_num [roundingRatio]

theorem roundingRatio_pow_nonneg (k : Nat) : 0 ≤ roundingRatio ^ k :=
  pow_nonneg (zero_le_one.trans one_le_roundingRatio) k

/-- `x` and `y` are at most `k` roundings apart. -/
def CloseWithin (k : Nat) (x y : ℚ) : Prop := x ≤ roundingRatio ^ k * y ∧ y ≤ roundingRatio ^ k * x

namespace CloseWithin

variable {k l : Nat} {x y z x' y' : ℚ}

theorem symm (h : CloseWithin k x y) : CloseWithin k y x := And.symm h

theorem mono (h : CloseWithin k x y) (hkl : k ≤ l) (hx : 0 ≤ x) (hy : 0 ≤ y) : CloseWithin l x y := by
  have hpow : roundingRatio ^ k ≤ roundingRatio ^ l := pow_le_pow_right₀ one_le_roundingRatio hkl
  exact ⟨h.1.trans (mul_le_mul_of_nonneg_right hpow hy), h.2.trans (mul_le_mul_of_nonneg_right hpow hx)⟩

theorem trans (h : CloseWithin k x y) (h' : CloseWithin l y z) : CloseWithin (k + l) x z := by
  constructor
  · calc x ≤ roundingRatio ^ k * y := h.1
      _ ≤ roundingRatio ^ k * (roundingRatio ^ l * z) := mul_le_mul_of_nonneg_left h'.1 (roundingRatio_pow_nonneg k)
      _ = roundingRatio ^ (k + l) * z := by ring
  · calc z ≤ roundingRatio ^ l * y := h'.2
      _ ≤ roundingRatio ^ l * (roundingRatio ^ k * x) := mul_le_mul_of_nonneg_left h.2 (roundingRatio_pow_nonneg l)
      _ = roundingRatio ^ (k + l) * x := by ring

theorem add (h : CloseWithin k x y) (h' : CloseWithin k x' y') : CloseWithin k (x + x') (y + y') := by
  constructor <;> rw [mul_add]
  · exact add_le_add h.1 h'.1
  · exact add_le_add h.2 h'.2

theorem mul_right (h : CloseWithin k x y) (hz : 0 ≤ z) : CloseWithin k (x * z) (y * z) := by
  constructor <;> rw [← mul_assoc]
  · exact mul_le_mul_of_nonneg_right h.1 hz
  · exact mul_le_mul_of_nonneg_right h.2 hz

theorem div_le (h : CloseWithin k x y) (h' : CloseWithin l x' y') (hy : 0 ≤ y) (hx' : 0 < x') (hy' : 0 < y') :
    x / x' ≤ roundingRatio ^ (k + l) * (y / y') := by
  have hpow := roundingRatio_pow_nonneg k
  rw [div_le_iff₀ hx']
  calc x ≤ roundingRatio ^ k * y := h.1
    _ = roundingRatio ^ k * (y / y') * y' := by field_simp
    _ ≤ roundingRatio ^ k * (y / y') * (roundingRatio ^ l * x') := by gcongr; exact h'.2
    _ = roundingRatio ^ (k + l) * (y / y') * x' := by ring

theorem div (h : CloseWithin k x y) (h' : CloseWithin l x' y') (hx : 0 ≤ x) (hy : 0 ≤ y) (hx' : 0 < x') (hy' : 0 < y') :
    CloseWithin (k + l) (x / x') (y / y') :=
  ⟨h.div_le h' hy hx' hy', h.symm.div_le h'.symm hx hy' hx'⟩

end CloseWithin

/-- A finite result is within 2^-24 of the exact ratio, relative to the ratio, which is 0 or has 24 significant bits. -/
theorem magPat_f32Round_relative {n d : Nat} (hd : 0 < d) (hlo : n = 0 ∨ 2 ^ 23 * d ≤ n)
    (hfin : f32Round n d < 0x7F800000) : |2 ^ 24 * ((magPat (f32Round n d) : Int) * d - n)| ≤ (n : Int) := by
  have hnear := magPat_f32Round_near hd hfin
  rcases hlo with rfl | hlo
  · have hzero : f32Round 0 d = 0 := f32Round_eq_of_same_ratio (n' := 0) (d' := 1) hd one_pos (by omega)
    have hmag : magPat 0 = 0 := rfl
    simp [hzero, hmag]
  · have hulp : 2 ^ 23 * (d * 2 ^ f32Shift (n / d)) ≤ n := by
      rcases (quotient_bits n d).2 with hs | hs
      · rw [hs]; omega
      · exact (Nat.le_div_iff_mul_le (by positivity)).mp hs
    rw [abs_le] at hnear ⊢
    zify at hulp
    constructor <;> linarith

/-- A number within 2^-24 of `n / d`, relative to it, is one rounding from it. -/
theorem closeWithin_one_of_relative {m n d : Nat} (hd : 0 < d) (h : |2 ^ 24 * ((m : Int) * d - n)| ≤ (n : Int)) :
    CloseWithin 1 m (n / d) := by
  qify at h
  obtain ⟨hbelow, habove⟩ := abs_le.mp h
  have hd' : (0 : ℚ) < d := Nat.cast_pos.mpr hd
  have hn : (0 : ℚ) ≤ n := Nat.cast_nonneg n
  rw [CloseWithin, pow_one, roundingRatio, ← mul_div_assoc, le_div_iff₀ hd', div_le_iff₀ hd']
  constructor <;> linarith

/-- Rounding a ratio moves it by one rounding. -/
theorem closeWithin_f32Round {n d : Nat} (hd : 0 < d) (hlo : n = 0 ∨ 2 ^ 23 * d ≤ n) (hhi : n ≤ 2 ^ 181 * d) :
    CloseWithin 1 (f32Mag (f32Pack false (f32Round n d))) (n / d) := by
  rw [f32Mag_pack_f32Round]
  exact closeWithin_one_of_relative hd (magPat_f32Round_relative hd hlo (f32Round_finite hd hhi))

/-- Conversion is one rounding. -/
theorem closeWithin_f32OfNat {n : Nat} (h : n ≤ 2 ^ 32) : CloseWithin 1 (f32Mag (f32OfNat n)) (n * 2 ^ 149) := by
  have hround := closeWithin_f32Round (n := n * 2 ^ 149) (d := 1) one_pos (by omega) (by omega)
  rwa [Nat.cast_one, div_one, Nat.cast_mul, Nat.cast_pow, Nat.cast_ofNat] at hround

/-- The quotient of two stored numbers, the dividend no greater, is one rounding from their exact ratio. -/
theorem closeWithin_f32Div {a b : F32} (ha : zeroOrNormal a) (hb : zeroOrNormal b) (hpos : 0 < f32Mag b)
    (hlo : f32Mag a = 0 ∨ 2 ^ 23 * f32Mag b ≤ f32Mag a * 2 ^ 149) (hle : f32Mag a ≤ f32Mag b) :
    CloseWithin 1 (f32Mag (f32Div a b)) (f32Mag a / f32Mag b * 2 ^ 149) := by
  have hround := closeWithin_f32Round (n := f32Mag a * 2 ^ 149) hpos (by omega) (by omega)
  rw [f32Div_of_zeroOrNormal ha hb hpos.ne']
  rwa [Nat.cast_mul, Nat.cast_pow, Nat.cast_ofNat, mul_div_right_comm] at hround

/-- The quotient of a count by the pixel count is three roundings from the exact share. -/
theorem closeWithin_quotient {count n : Nat} (h1 : 1 ≤ n) (h2 : n < 2 ^ 32) (hc : count ≤ n) :
    CloseWithin 3 (f32Mag (f32Div (f32OfNat count) (f32OfNat n))) (count / n * 2 ^ 149) := by
  obtain ⟨hlo, hhi⟩ := f32Mag_f32OfNat_bounds h1 h2.le
  have hcount : f32Mag (f32OfNat count) = 0 ∨ 2 ^ 149 ≤ f32Mag (f32OfNat count) := by
    rcases Nat.eq_zero_or_pos count with rfl | hpos
    · exact Or.inl (by decide)
    · exact Or.inr (f32Mag_f32OfNat_bounds hpos (by omega)).1
  have hquot := closeWithin_f32Div (zeroOrNormal_f32OfNat (n := count) (by omega)) (zeroOrNormal_f32OfNat h2.le)
    (by omega) (by omega) (f32Mag_f32OfNat_mono hc)
  have hratio := (closeWithin_f32OfNat (n := count) (by omega)).div (closeWithin_f32OfNat h2.le) (Nat.cast_nonneg _)
    (by positivity) (Nat.cast_pos.mpr (by omega)) (by positivity)
  rw [mul_div_mul_right _ _ (by norm_num)] at hratio
  have hshare := hquot.trans (hratio.mul_right (by positivity))
  exact hshare

/-- The sum of two stored numbers is one rounding from their exact sum. -/
theorem closeWithin_f32Add {a b : F32} {k : Nat} (hk : k < 256) (ha : StoredAtMost k a) (hb : StoredAtMost 1 b) :
    CloseWithin 1 (f32Mag (f32Add a b)) (f32Mag a + f32Mag b) := by
  obtain ⟨hza, hka⟩ := ha
  obtain ⟨hzb, hkb⟩ := hb
  have hlo := f32Mag_of_zeroOrNormal hza
  have hlo' := f32Mag_of_zeroOrNormal hzb
  have hround := closeWithin_f32Round (n := f32Mag a + f32Mag b) (d := 1) one_pos (by omega) (by omega)
  rw [f32Add_of_zeroOrNormal hza hzb]
  rwa [Nat.cast_one, div_one, Nat.cast_add] at hround

/-- The number of samples of channel `c` in the bins up to `i`, by the counts. -/
def countUpTo (cnt : Table Word) (c : Fin 3) (i : Nat) : Nat :=
  ∑ j ∈ Finset.range (i + 1), if h : j < 256 then (entry cnt c ⟨j, h⟩).toNat else 0

theorem countUpTo_zero (cnt : Table Word) (c : Fin 3) : countUpTo cnt c 0 = (entry cnt c 0).toNat := by
  simp [countUpTo]

theorem countUpTo_succ (cnt : Table Word) (c : Fin 3) {i : Nat} (hi : i + 1 < 256) :
    countUpTo cnt c (i + 1) = countUpTo cnt c i + (entry cnt c ⟨i + 1, hi⟩).toNat := by
  rw [countUpTo, Finset.sum_range_succ, dif_pos hi]
  rfl

theorem countUpTo_last (cnt : Table Word) (c : Fin 3) : countUpTo cnt c 255 = countTotal cnt c := by
  rw [countTotal_eq_sum, Finset.sum_fin_eq_sum_range]
  rfl

section
variable {cnt : Table Word} {n : Nat} (h1 : 0 < n) (h2 : n < 2 ^ 32) (hsum : ∀ c : Fin 3, countTotal cnt c = n)
include h1 h2 hsum

/-- Every entry of a histogram is three roundings from its bin's exact share of the pixels. -/
theorem entry_normalise_closeWithin (c : Fin 3) (i : Fin 256) :
    CloseWithin 3 (f32Mag (entry (normalise binary32 cnt n) c i)) ((entry cnt c i).toNat / n * 2 ^ 149) := by
  rw [entry_normalise]
  exact closeWithin_quotient h1 h2 (hsum c ▸ entry_le_countTotal cnt c i)

/-- Entry `i` of a CDF is `i + 3` roundings from the exact share of the bins up to `i`, by induction on these bins. -/
theorem entry_integrate_closeWithin (c : Fin 3) (i : Nat) (hi : i < 256) :
    CloseWithin (i + 3) (f32Mag (entry (integrate binary32 (normalise binary32 cnt n)) c ⟨i, hi⟩))
      (countUpTo cnt c i / n * 2 ^ 149) := by
  induction i with
  | zero =>
    have h0 := entry_normalise_closeWithin h1 h2 hsum c 0
    rwa [← entry_integrate_zero binary32, ← countUpTo_zero] at h0
  | succ i ih =>
    have hbin := (entry_normalise_closeWithin h1 h2 hsum c ⟨i + 1, hi⟩).mono (l := i + 3) (by omega)
      (Nat.cast_nonneg _) (by positivity)
    have hround := closeWithin_f32Add hi (entry_integrate_storedAtMost h1 h2 hsum c i (Nat.lt_of_succ_lt hi))
      (entry_normalise_storedAtMost h1 h2 hsum c ⟨i + 1, hi⟩)
    rw [entry_integrate_succ, countUpTo_succ cnt c hi, Nat.cast_add, add_div, add_mul,
      show i + 1 + 3 = 1 + (i + 3) by omega]
    exact hround.trans ((ih (Nat.lt_of_succ_lt hi)).add hbin)

end

/-- All the roundings behind the final bin together stay below 2^-15. -/
theorem roundingRatio_pow_lt : roundingRatio ^ 258 < 1 + 1 / 2 ^ 15 := by
  rw [show 258 = 129 + 129 from rfl, pow_add]
  norm_num [roundingRatio]

/-- A number of 258 roundings from 1 is within 2^-15 of it. -/
theorem near_one_of_closeWithin {m : Nat} (h : CloseWithin 258 m (2 ^ 149)) : |(m : Int) - 2 ^ 149| < 2 ^ 134 := by
  obtain ⟨hhigh, hlow⟩ := h
  have hr := roundingRatio_pow_lt
  generalize roundingRatio ^ 258 = r at *
  have hm : (0 : ℚ) ≤ m := Nat.cast_nonneg m
  have hlow' : (2 : ℚ) ^ 149 ≤ (1 + 1 / 2 ^ 15) * m := hlow.trans (mul_le_mul_of_nonneg_right hr.le hm)
  qify
  rw [abs_lt]
  constructor <;> linarith

/-- Settles O50: the exact share of all bins together is 1, and 258 roundings lie between it and the final bin. -/
theorem finalCdfBinIsNearOne : Obligations.FinalCdfBinIsNearOne := by
  intro s hinv hc c
  obtain ⟨cnt, n, h1, h2, hsum, hcdf⟩ := hinv.validCdf hc
  have hclose := entry_integrate_closeWithin h1 h2 hsum c 255 (by decide)
  have hone : (n : ℚ) / n = 1 := div_self (Nat.cast_ne_zero.mpr (Nat.ne_of_gt h1))
  rw [countUpTo_last, hsum c, hone, one_mul] at hclose
  rw [f32Units_of_zeroOrNormal ((hinv.validCdf hc).zeroOrNormal_entry c 255), hcdf]
  exact near_one_of_closeWithin hclose

end Sys2Proof.Machine
end

section
/-! `LUTGEN`: the sweep of one cursor per channel (42_lut.md R120), its independence of reference bin 0 (R121 (e)), and
its closed form (R124). -/

namespace Sys2Proof.Machine

section

variable {V : Type} (F : NumFormat V)

/-- The cursor of channel `c` after the first `n` source bins: 1 at first, then one loop of 42_lut.md R120 per bin. -/
def lutCursor (ref src : Table V) (c : Fin 3) (n : Nat) : Fin 256 := cursorAt F ref[c] 1 src[c].toList n

@[simp] theorem lutCursor_zero (ref src : Table V) (c : Fin 3) : lutCursor F ref src c 0 = 1 :=
  cursorAt_zero F ref[c] 1 src[c].toList

theorem lutCursor_succ (ref src : Table V) (c : Fin 3) (b : Fin 256) :
    lutCursor F ref src c (b.val + 1) = cursorAfter F ref[c] (lutCursor F ref src c b.val) (entry src c b) :=
  cursorAt_step F ref src c b

theorem lutCursor_le_succ (ref src : Table V) (c : Fin 3) (n : Nat) :
    (lutCursor F ref src c n).val ≤ (lutCursor F ref src c (n + 1)).val :=
  cursorAt_mono F ref[c] 1 src[c].toList n

theorem one_le_lutCursor (ref src : Table V) (c : Fin 3) (n : Nat) : 1 ≤ (lutCursor F ref src c n).val :=
  one_le_cursorAt F ref[c] src[c].toList n

theorem toNat_entry_buildLut_eq_lutCursor (ref src : Table V) (c : Fin 3) (b : Fin 256) :
    (entry (buildLut F ref src) c b).toNat = (lutCursor F ref src c (b.val + 1)).val - 1 :=
  toNat_entry_buildLut F ref src c b

/-- A reference bin that the cursor passes over source bin `b` lies below the threshold of `b`. -/
theorem lt_of_lutCursor_passed (ref src : Table V) (c : Fin 3) (b j : Fin 256)
    (h : (lutCursor F ref src c b.val).val ≤ j.val) (h' : j.val < (lutCursor F ref src c (b.val + 1)).val) :
    F.lt (entry ref c j) (F.sub (entry src c b) F.eps) = true := by
  rw [lutCursor_succ] at h'
  exact lt_of_passed F ref[c] _ _ _ j h h'

/-- Over source bin `b` the cursor stops at 255 or at a reference bin not below the threshold of `b`. -/
theorem lutCursor_stops (ref src : Table V) (c : Fin 3) (b : Fin 256) :
    (lutCursor F ref src c (b.val + 1)).val = 255 ∨
      F.lt (entry ref c (lutCursor F ref src c (b.val + 1))) (F.sub (entry src c b) F.eps) = false := by
  rw [lutCursor_succ]
  exact advanceCursor_stops F ref[c] _ _ _ (Nat.le_add_left 255 _)

end

theorem exec_lutgen_of_noCdf {s : State} (h : s.cvalid = false) : exec .lutgen s = .next (raise .noCdf s) := if_pos h

theorem exec_lutgen_of_noRef {s : State} (hc : s.cvalid = true) (hr : s.rvalid = false) :
    exec .lutgen s = .next (raise .noRef s) :=
  (if_neg (by simp [hc])).trans (if_pos hr)

theorem exec_lutgen_of_ready {s : State} (hc : s.cvalid = true) (hr : s.rvalid = true) :
    exec .lutgen s = .next (lutgenDone s) :=
  (if_neg (by simp [hc])).trans (if_neg (by simp [hr]))

/-- Settles O12: the two errors, or the cursor of `lutCursor` with the laws of its loop. -/
theorem lutgenSweepsOneCursor : Obligations.LutgenSweepsOneCursor := by
  refine fun s => ⟨exec_lutgen_of_noCdf, exec_lutgen_of_noRef, fun hc hr =>
    ⟨lutgenDone s, lutCursor binary32 s.ref s.cdf, exec_lutgen_of_ready hc hr, fun c => ?_, fun c b => ?_, rfl⟩⟩
  · rw [lutCursor_zero]
    rfl
  · exact ⟨lutCursor_le_succ binary32 s.ref s.cdf c b.val, lt_of_lutCursor_passed binary32 s.ref s.cdf c b,
      lutCursor_stops binary32 s.ref s.cdf c b, toNat_entry_buildLut_eq_lutCursor binary32 s.ref s.cdf c b⟩

section

variable {V : Type} (F : NumFormat V)

/-- The cursor loop looks at no reference bin below where it starts. -/
theorem advanceCursor_congr {ref ref' : Row V} (t : V) (fuel : Nat) (cur : Fin 256)
    (h : ∀ j : Fin 256, cur.val ≤ j.val → ref[j] = ref'[j]) :
    advanceCursor F ref t fuel cur = advanceCursor F ref' t fuel cur := by
  induction fuel generalizing cur with
  | zero => rfl
  | succ fuel ih =>
    unfold advanceCursor
    split
    · next hmax =>
      rw [h cur le_rfl, ih ⟨cur.val + 1, Nat.succ_lt_succ hmax⟩ fun j hj => h j (Nat.le_of_succ_le hj)]
    · rfl

/-- The cursor starts at 1, so the sweep looks at no reference bin below 1. -/
theorem lutCursor_congr {ref ref' : Table V} (src : Table V) (c : Fin 3)
    (h : ∀ j : Fin 256, 1 ≤ j.val → entry ref c j = entry ref' c j) (n : Nat) (hn : n ≤ 256) :
    lutCursor F ref src c n = lutCursor F ref' src c n := by
  induction n with
  | zero => rw [lutCursor_zero, lutCursor_zero]
  | succ n ih =>
    rw [lutCursor_succ F ref src c ⟨n, hn⟩, lutCursor_succ F ref' src c ⟨n, hn⟩, ← ih (Nat.le_of_succ_le hn)]
    exact advanceCursor_congr F _ _ _ fun j hj => h j ((one_le_lutCursor F ref src c n).trans hj)

/-- Every reference bin from 1 up that the cursor has passed lies below the threshold of one of the source bins so
far. -/
theorem exists_lt_of_lt_lutCursor (ref src : Table V) (c : Fin 3) (j : Fin 256) (hj : 1 ≤ j.val) (n : Nat)
    (hn : n ≤ 256) (h : j.val < (lutCursor F ref src c n).val) :
    ∃ b : Fin 256, b.val < n ∧ F.lt (entry ref c j) (F.sub (entry src c b) F.eps) = true := by
  induction n with
  | zero =>
    rw [lutCursor_zero] at h
    exact absurd h (not_lt.mpr hj)
  | succ n ih =>
    by_cases hold : j.val < (lutCursor F ref src c n).val
    · obtain ⟨b, hb, hlt⟩ := ih (Nat.le_of_succ_le hn) hold
      exact ⟨b, Nat.lt_succ_of_lt hb, hlt⟩
    · exact ⟨⟨n, hn⟩, Nat.lt_succ_self n, lt_of_lutCursor_passed F ref src c ⟨n, hn⟩ j (not_lt.mp hold) h⟩

end

/-- Settles O40: two tables that agree from bin 1 up guide the cursor alike. -/
theorem lutIgnoresReferenceBinZero : Obligations.LutIgnoresReferenceBinZero := by
  intro V F ref ref' src h
  refine table_ext _ _ fun c b => BitVec.eq_of_toNat_eq ?_
  rw [toNat_entry_buildLut_eq_lutCursor, toNat_entry_buildLut_eq_lutCursor, lutCursor_congr F src c (h c) _ b.isLt]

/-- What is below a number is below every number, not a NaN, that is not less. -/
theorem f32Lt_of_f32Lt_of_not_f32Lt {a t t' : F32} (h : f32Lt a t = true) (hnan : f32IsNaN t' = false)
    (hle : f32Lt t' t = false) : f32Lt a t' = true := by
  simp only [f32Lt, Bool.and_eq_true, Bool.not_eq_true', decide_eq_true_eq] at h
  obtain ⟨⟨ha, ht⟩, hlt⟩ := h
  simp only [f32Lt, ha, ht, hnan, Bool.not_false, Bool.true_and, decide_eq_false_iff_not, not_lt,
    decide_eq_true_eq] at hle ⊢
  exact hlt.trans_le hle

/-- Settles O41: a bin the cursor has passed is below the threshold of a source bin so far, so below that of `b`; the
bin it stands at stopped it over `b`. -/
theorem lutClosedForm : Obligations.LutClosedForm := by
  intro ref src c hnan hmono b
  have hcur := one_le_lutCursor binary32 ref src c (b.val + 1)
  rw [toNat_entry_buildLut_eq_lutCursor]
  refine ⟨fun j hj hjb => ?_, ?_⟩
  · obtain ⟨b', hb', hlt⟩ := exists_lt_of_lt_lutCursor binary32 ref src c j hj (b.val + 1) b.isLt (by omega)
    exact f32Lt_of_f32Lt_of_not_f32Lt hlt (hnan b) (hmono b' b (Nat.le_of_lt_succ hb'))
  · refine (lutCursor_stops binary32 ref src c b).imp (fun hmax => by rw [hmax]) fun hstop => ?_
    exact ⟨lutCursor binary32 ref src c (b.val + 1), (Nat.sub_add_cancel hcur).symm, hstop⟩

end Sys2Proof.Machine
end

section
/-! What a successful `XFORM` leaves in its destination (43_transform.md R130), and the LUT it then has after a
successful `LUTGEN` (R132 (d)). -/

namespace Sys2Proof.Machine

/-- A `LUTGEN` that ends without an error is one that completed. -/
theorem eq_lutgenDone_of_success {s t : State} (h : exec .lutgen s = .next t) (herr : t.err = 0) :
    t = lutgenDone s := by
  rcases execLutgen_cases h with ⟨-, rfl⟩ | ⟨-, -, rfl⟩ | ⟨-, -, hdone⟩
  · exact absurd herr (code_ne_zero .noCdf)
  · exact absurd herr (code_ne_zero .noRef)
  · exact hdone

/-- An `XFORM` of some pixels that ends without an error is one that completed, on regions that passed its checks. -/
theorem eq_xformDone_of_success {s t : State} (hpixels : pixelCount s ≠ 0) (h : exec .xform s = .next t)
    (hidle : t.running = none) (herr : t.err = 0) :
    (dstSpan s).pastTop = false ∧ partialOverlap s = false ∧ t = xformDone s := by
  rcases execXform_cases h with ⟨hempty, -⟩ | ⟨-, -, rfl⟩ | ⟨-, -, -, -, rfl⟩ | ⟨-, -, hdst, hover, -, hdone⟩ |
    ⟨-, -, -, -, -, rfl⟩
  · exact absurd hempty hpixels
  · exact absurd herr (code_ne_zero .range)
  · exact absurd herr (code_ne_zero .overlap)
  · exact ⟨hdst, hover, hdone⟩
  · exact absurd hidle (by simp)

/-- After a successful `XFORM` byte `k` of the destination is the image of the byte that stood at byte `k` of the
source (43_transform.md R130). -/
theorem read_of_xform_success {s t : State} (hwf : s.mem.wf = true) (h : exec .xform s = .next t)
    (hidle : t.running = none) (herr : t.err = 0) {k : Nat} (hk : k < frameBytes s) :
    t.mem.read (s.dst.toNat + k) = mapSample s.lut k (s.mem.read (s.src.toNat + k)) := by
  have hpixels : pixelCount s ≠ 0 := by
    intro hempty
    rw [frameBytes, hempty] at hk
    exact absurd hk (Nat.not_lt_zero k)
  obtain ⟨hdst, hover, rfl⟩ := eq_xformDone_of_success hpixels h hidle herr
  exact read_mapBytes s.lut (srcSpan s) (dstSpan s) hwf (placed_of_not_overlap hover) (frameBytes s) le_rfl
    (pastTop_eq_false hdst) k hk

/-- Settles O44: each byte of the output is an entry of the LUT that the mapper wrote, at most 254. -/
theorem matchedFrameHasNo255 : Obligations.MatchedFrameHasNo255 := by
  intro s t u hwf hlutgen hready hxform hidle herr k hk
  obtain rfl := eq_lutgenDone_of_success hlutgen hready
  have hread : u.mem.read (s.dst.toNat + k) = entry (buildLut binary32 s.ref s.cdf) (channelOf k) _ :=
    read_of_xform_success (s := lutgenDone s) hwf hxform hidle herr hk
  have hentry := lutEntriesAtMost254 F32 binary32 s.ref s.cdf (channelOf k)
  intro h255
  exact absurd (hentry _) (by rw [← hread, h255]; decide)

end Sys2Proof.Machine
end

section
/-! `XFORM` on every state (43_transform.md R130, R134), and two laws of the function it computes (R132 (a), (c)). -/

namespace Sys2Proof.Machine

/-- An `XFORM` of no pixels succeeds at once (43_transform.md R134). -/
theorem exec_xform_of_empty {s : State} (h : pixelCount s = 0) : exec .xform s = .next (finish s) := if_pos h

theorem exec_xform_of_pastTop {s : State} (hpixels : pixelCount s ≠ 0)
    (htop : (srcSpan s).pastTop = true ∨ (dstSpan s).pastTop = true) : exec .xform s = .next (raise .range s) :=
  (if_neg hpixels).trans (if_pos (Bool.or_eq_true_iff.mpr htop))

theorem exec_xform_of_overlap {s : State} (hpixels : pixelCount s ≠ 0) (hsrc : (srcSpan s).pastTop = false)
    (hdst : (dstSpan s).pastTop = false) (hover : partialOverlap s = true) :
    exec .xform s = .next (raise .overlap s) :=
  (if_neg hpixels).trans ((if_neg (by simp [hsrc, hdst])).trans (if_pos hover))

/-- An `XFORM` without an error completes on plain memory (43_transform.md R130). -/
theorem exec_xform_of_plain {s : State} (hpixels : pixelCount s ≠ 0) (h : firstError .xform s = 0)
    (hplain : OnPlainMemory .xform s) : exec .xform s = .next (xformDone s) :=
  (exec_xform_of_firstError hpixels h).trans (accessing_plain hplain)

/-- Settles O13: the four clauses are the four ways an `XFORM` on plain memory ends; the laws of the transform loop
give the memory it leaves. -/
theorem xformMapsTheFrame : Obligations.XformMapsTheFrame := by
  intro s hwf
  refine ⟨exec_xform_of_empty, fun hpixels hrange => ?_, fun hpixels hsrc hdst hover => ?_,
    fun hpixels hsrc hdst hover hplain => ?_⟩
  · exact exec_xform_of_pastTop hpixels (hrange.imp (srcSpan_pastTop_iff s).mpr (dstSpan_pastTop_iff s).mpr)
  · exact exec_xform_of_overlap hpixels (pastTop_of_le hsrc) (pastTop_of_le hdst) ((partialOverlap_iff s).mpr hover)
  · have hapart : partialOverlap s = false := Bool.eq_false_iff.mpr (mt (partialOverlap_iff s).mp hover)
    have hnone : firstError .xform s = 0 :=
      (firstError_xform_eq_zero_iff hpixels).mpr ⟨pastTop_of_le hsrc, pastTop_of_le hdst, hapart⟩
    have hdone : exec .xform s = .next (xformDone s) := exec_xform_of_plain hpixels hnone hplain
    exact ⟨xformDone s, hdone, fun _ hk => read_of_xform_success hwf hdone rfl rfl hk,
      fun a hout => read_mapBytes_other s.lut (srcSpan s) (dstSpan s) s.mem (frameBytes s) a hout,
      wf_mapBytes s.lut (srcSpan s) (dstSpan s) hwf (frameBytes s) hdst, rfl⟩

/-- Settles O42: each byte of the output is the image of its source byte, and the identity LUT maps it to itself. -/
theorem identityLutCopiesTheFrame : Obligations.IdentityLutCopiesTheFrame := by
  intro s t hwf hid hxform hidle herr k hk
  rw [read_of_xform_success hwf hxform hidle herr hk]
  exact BitVec.eq_of_toNat_eq (hid (channelOf k) (binOf (s.mem.read (s.src.toNat + k))))

/-- Settles O43: two samples of one channel are mapped by the same row of the LUT, which is non-decreasing. -/
theorem transformKeepsOrder : Obligations.TransformKeepsOrder := by
  intro s t hwf hmono hxform hidle herr k k' hk hk' hchannel hle
  have hrow : channelOf k = channelOf k' := Fin.ext hchannel
  rw [read_of_xform_success hwf hxform hidle herr hk, read_of_xform_success hwf hxform hidle herr hk', mapSample,
    mapSample, hrow]
  exact hmono (channelOf k') _ _ hle

end Sys2Proof.Machine
end

section
/-! `HIST`, `CDF`, `LUTGEN` in a row: the LUT depends on the frame and the Reference alone (45_host_sequences.md
R144). -/

namespace Sys2Proof.Machine

/-- The accumulators look at nothing but the bytes they count (40_histogram.md R100). -/
theorem countBytes_congr {m m' : Memory} {r r' : Span} {n : Nat}
    (h : ∀ k, k < n → m.read (r.addr k) = m'.read (r'.addr k)) : countBytes m r n = countBytes m' r' n := by
  induction n with
  | zero => rfl
  | succ n ih => rw [countBytes, countBytes, ih fun k hk => h k (Nat.lt_succ_of_lt hk), h n (Nat.lt_succ_self n)]

/-- What `HIST`, `CDF` and `LUTGEN` leave when all three pass their checks. -/
def lutOfFrameDone (s : State) : State := lutgenDone (cdfDone (histDone s))

/-- The LUT of a frame, in the inputs it is made from: the Reference, the frame's bytes and its dimensions. -/
theorem lutOfFrameDone_lut (s : State) :
    (lutOfFrameDone s).lut = buildLut binary32 s.ref (integrate binary32
      (normalise binary32 (countBytes s.mem (srcSpan s) (frameBytes s)) (pixelCount s))) := rfl

theorem lutOfFrameDone_lut_congr {s s' : State} (href : s.ref = s'.ref) (hpixels : pixelCount s = pixelCount s')
    (hbytes : ∀ k, k < frameBytes s → s.mem.read ((srcSpan s).addr k) = s'.mem.read ((srcSpan s').addr k)) :
    (lutOfFrameDone s).lut = (lutOfFrameDone s').lut := by
  have hsize : frameBytes s = frameBytes s' := congrArg (3 * ·) hpixels
  rw [lutOfFrameDone_lut, lutOfFrameDone_lut, href, hpixels, countBytes_congr hbytes, hsize]

/-- A `HIST` that passes its checks sets `HVALID`, and the `CDF` after it `CVALID`, so with a Reference all three
commands complete. -/
theorem exec_hist_cdf_lutgen {s : State} (href : s.rvalid = true) (hnone : firstError .hist s = 0)
    (hplain : OnPlainMemory .hist s) :
    exec .hist s = .next (histDone s) ∧ exec .cdf (histDone s) = .next (cdfDone (histDone s)) ∧
      exec .lutgen (cdfDone (histDone s)) = .next (lutOfFrameDone s) :=
  ⟨exec_hist_of_plain hnone hplain, exec_cdf_of_hist rfl, exec_lutgen_of_ready rfl href⟩

/-- Settles O51: in each block the three commands complete, and both LUTs are made from the same inputs. -/
theorem lutDependsOnFrameAndReference : Obligations.LutDependsOnFrameAndReference := by
  intro s s' hv hv' href hwidth hheight hbytes _ hnone hnone' hplain hplain'
  obtain ⟨hhist, hcdf, hlutgen⟩ := exec_hist_cdf_lutgen hv hnone hplain
  obtain ⟨hhist', hcdf', hlutgen'⟩ := exec_hist_cdf_lutgen hv' hnone' hplain'
  have hpixels : pixelCount s = pixelCount s' := by rw [pixelCount, pixelCount, hwidth, hheight]
  exact ⟨_, _, _, _, _, _, hhist, hcdf, hlutgen, hhist', hcdf', hlutgen', rfl, rfl,
    lutOfFrameDone_lut_congr href hpixels hbytes⟩

end Sys2Proof.Machine
end

section
/-! How a command ends: with the first error whose condition holds, recorded and nothing more, or with none
(60_exceptions.md R152, R153, R161). -/

namespace Sys2Proof.Machine

/-- The state in which a command runs its checks: `HIST` has cleared `HVALID` and `CVALID` (60_exceptions.md R153). -/
def atChecks (i : Instr) (s : State) : State :=
  { s with hvalid := s.hvalid && i != .hist, cvalid := s.cvalid && i != .hist }

theorem atChecks_hist (s : State) : atChecks .hist s = clearFrameFlags s := by
  simp [atChecks, clearFrameFlags]

theorem atChecks_of_ne_hist {i : Instr} (h : i ≠ .hist) (s : State) : atChecks i s = s := by
  have hother : (i != .hist) = true := bne_iff_ne.mpr h
  simp only [atChecks, hother, Bool.and_true]

/-- `t` is an end of command `i` on `s`: the first error whose condition holds has been raised, or none holds and none
is recorded. -/
inductive Ends (i : Instr) (s : State) : State → Prop
  | error (k : ErrKind) (hfirst : firstError i s = k.code.toNat) : Ends i s (raise k (atChecks i s))
  | success {t : State} (hnone : firstError i s = 0) (herr : t.err = 0) (hlog : t.errlog = s.errlog) : Ends i s t

/-- An error of a command other than `HIST` is raised on the state the command found. -/
theorem Ends.error_of_ne_hist {i : Instr} {s : State} (h : i ≠ .hist) (k : ErrKind)
    (hfirst : firstError i s = k.code.toNat) : Ends i s (raise k s) := by
  simpa only [atChecks_of_ne_hist h] using Ends.error k hfirst

theorem execHist_ends {s t : State} (h : execHist s = .next t) (hidle : t.running = none) : Ends .hist s t := by
  rcases execHist_cases h with ⟨hempty, rfl⟩ | ⟨hpixels, htop, rfl⟩ | ⟨hpixels, hfits, -, rfl⟩ | ⟨-, -, -, rfl⟩
  · rw [← atChecks_hist]
    exact .error .empty (if_pos hempty)
  · rw [← atChecks_hist]
    exact .error .range ((if_neg hpixels).trans (if_pos ((srcSpan_pastTop_iff s).mp htop)))
  · exact .success ((firstError_hist_eq_zero_iff s).mpr ⟨hpixels, hfits⟩) rfl rfl
  · exact absurd hidle (by simp)

theorem execCdf_ends {s t : State} (h : execCdf s = .next t) : Ends .cdf s t := by
  rcases execCdf_cases h with ⟨hhist, rfl⟩ | ⟨hhist, rfl⟩
  · exact .error_of_ne_hist (by decide) .noHist (by simp [firstError, hhist, ErrKind.code])
  · exact .success (by simp [firstError, hhist]) rfl rfl

theorem execSetref_ends {s t : State} (h : execSetref s = .next t) : Ends .setref s t := by
  rcases execSetref_cases h with ⟨hcdf, rfl⟩ | ⟨hcdf, href, rfl⟩ | ⟨hcdf, href, rfl⟩
  · exact .error_of_ne_hist (by decide) .noCdf (by simp [firstError, hcdf, ErrKind.code])
  · exact .error_of_ne_hist (by decide) .refLocked (by simp [firstError, hcdf, href, ErrKind.code])
  · exact .success (by simp [firstError, hcdf, href]) rfl rfl

theorem execLutgen_ends {s t : State} (h : execLutgen s = .next t) : Ends .lutgen s t := by
  rcases execLutgen_cases h with ⟨hcdf, rfl⟩ | ⟨hcdf, href, rfl⟩ | ⟨hcdf, href, rfl⟩
  · exact .error_of_ne_hist (by decide) .noCdf (by simp [firstError, hcdf, ErrKind.code])
  · exact .error_of_ne_hist (by decide) .noRef (by simp [firstError, hcdf, href, ErrKind.code])
  · exact .success (by simp [firstError, hcdf, href]) rfl rfl

theorem firstError_xform_of_pastTop {s : State} (hpixels : pixelCount s ≠ 0)
    (htop : (srcSpan s).pastTop = true ∨ (dstSpan s).pastTop = true) : firstError .xform s = 3 :=
  (if_neg hpixels).trans (if_pos (htop.imp (srcSpan_pastTop_iff s).mp (dstSpan_pastTop_iff s).mp))

theorem firstError_xform_of_overlap {s : State} (hpixels : pixelCount s ≠ 0) (hsrc : (srcSpan s).pastTop = false)
    (hdst : (dstSpan s).pastTop = false) (hover : partialOverlap s = true) : firstError .xform s = 8 := by
  have hsrc' := mt (srcSpan_pastTop_iff s).mpr (Bool.eq_false_iff.mp hsrc)
  have hdst' := mt (dstSpan_pastTop_iff s).mpr (Bool.eq_false_iff.mp hdst)
  have hmeet := ((partialOverlap_iff s).mp hover).imp_left Ne.symm
  exact (if_neg hpixels).trans ((if_neg (not_or.mpr ⟨hsrc', hdst'⟩)).trans (if_pos hmeet))

theorem execXform_ends {s t : State} (h : execXform s = .next t) (hidle : t.running = none) : Ends .xform s t := by
  rcases execXform_cases h with ⟨hempty, rfl⟩ | ⟨hpixels, htop, rfl⟩ | ⟨hpixels, hsrc, hdst, hover, rfl⟩ |
    ⟨hpixels, hsrc, hdst, hover, -, rfl⟩ | ⟨-, -, -, -, -, rfl⟩
  · exact .success (if_pos hempty) rfl rfl
  · exact .error_of_ne_hist (by decide) .range (firstError_xform_of_pastTop hpixels htop)
  · exact .error_of_ne_hist (by decide) .overlap (firstError_xform_of_overlap hpixels hsrc hdst hover)
  · exact .success ((firstError_xform_eq_zero_iff hpixels).mpr ⟨hsrc, hdst, hover⟩) rfl rfl
  · exact absurd hidle (by simp)

/-- Every command that ends has raised its first error, or has none (60_exceptions.md R161). -/
theorem exec_ends {i : Instr} {s t : State} (h : exec i s = .next t) (hidle : t.running = none) : Ends i s t := by
  cases i with
  | hist => exact execHist_ends h hidle
  | cdf => exact execCdf_ends h
  | setref => exact execSetref_ends h
  | lutgen => exact execLutgen_ends h
  | xform => exact execXform_ends h hidle

/-- An illegal word is not a command, and runs no check but the decoder's (30_encoding.md R89). -/
theorem acceptCommand_of_illegal {w : Word} (h : decode w = none) (s : State) :
    acceptCommand w s = raise .illegal s := by
  simp only [acceptCommand, h]

/-- Settles O14: the code in `STATUS.ERR` is that of the error raised, and an illegal word raises `E_ILLEGAL`. -/
theorem firstErrorIsReported : Obligations.FirstErrorIsReported := by
  refine ⟨fun i s t h hidle => ?_, fun w s hw => acceptCommand_of_illegal hw s⟩
  cases exec_ends h hidle with
  | error k hfirst => exact hfirst.symm
  | success hnone herr _ => rw [hnone, herr]; rfl

/-- Settles O15: an error is raised on the state of the checks, in which only `HIST` has changed anything, and a
success records no error. -/
theorem errorsArePrecise : Obligations.ErrorsArePrecise := by
  intro i s t h hidle
  cases exec_ends h hidle with
  | error k _ => exact ⟨fun _ => ⟨code_toNat_le k, rfl⟩, fun herr => absurd herr (code_ne_zero k)⟩
  | success _ herr hlog => exact ⟨fun hne => absurd herr hne, fun _ => hlog⟩

/-- In an idle block an error changes the error record alone: `BUSY` is 0 already (60_exceptions.md R152). -/
theorem raise_of_idle {s : State} (h : s.running = none) (k : ErrKind) :
    raise k s = { s with err := k.code, errlog := errlogSet s.errlog k, progress := 0 } := by
  rw [raise, h]

/-- Settles O7: a write to `CMD` hands the word to the decoder, and an illegal one raises `E_ILLEGAL` on an idle
block. -/
theorem illegalWordOnlyRecordsItsError : Obligations.IllegalWordOnlyRecordsItsError := by
  intro s w hidle hw
  calc regWrite 0x0000 w s = raise .illegal s := acceptCommand_of_illegal ((decode_eq_none_iff_toNat w).mpr hw) s
    _ = { s with err := 1, errlog := s.errlog ||| 1, progress := 0 } := raise_of_idle hidle .illegal

end Sys2Proof.Machine
end

section
/-! Reset (70_reset_and_hazards.md R180, R181): the block begins anew, and an abandoned `XFORM` leaves each byte of its
destination old or transformed. -/

namespace Sys2Proof.Machine

/-- An `XFORM` that would reach its work has no error (60_exceptions.md R161). -/
theorem firstError_xform_of_works {s : State} (h : xformWorks s = true) : firstError .xform s = 0 := by
  simp only [xformWorks, Bool.and_eq_true, bne_iff_ne, Bool.not_eq_true'] at h
  obtain ⟨⟨⟨hpixels, hsrc⟩, hdst⟩, hover⟩ := h
  exact (firstError_xform_eq_zero_iff hpixels).mpr ⟨hsrc, hdst, hover⟩

/-- Reset while an `XFORM` runs cuts it off. -/
theorem hostReset_of_xform {s : State} {w : Word} (hw : s.running = some w) (hd : decode w = some .xform) :
    hostReset s = abandonXform s := by
  simp only [hostReset, hw, Option.bind_some, hd]

/-- An `XFORM` that would not reach its work has written nothing. -/
theorem abandonXform_of_no_work {s : State} (h : xformWorks s = false) : abandonXform s = .next (resetBlock s.mem s) :=
  if_neg (Bool.eq_false_iff.mp h)

/-- An `XFORM` at work on backed memory has written some of its destination, whether or not memory answers. -/
theorem abandonXform_of_backed {s : State} (h : xformWorks s = true)
    (hbacked : portReply s.platform (commandSpans .xform s) ≠ .unbacked) :
    abandonXform s = .next (resetBlock (mapSomeBytes s.lut (srcSpan s) (dstSpan s) s.mem s.draws (frameBytes s))
      { s with draws := s.draws + frameBytes s }) := by
  rw [abandonXform, if_pos h]
  split
  · next hreply => exact absurd hreply hbacked
  · rfl
  · rfl

/-- Frame memory `m` may be what a reset leaves of `s`: outside the destination region it is as it was, and each byte of
that region is the old one or the transformed one (70_reset_and_hazards.md R181). -/
structure AbandonedMemory (s : State) (m : Memory) : Prop where
  outside : ∀ a, a < s.dst.toNat ∨ s.dst.toNat + frameBytes s ≤ a → m.read a = s.mem.read a
  inside : ∀ k, k < frameBytes s → m.read (s.dst.toNat + k) = s.mem.read (s.dst.toNat + k) ∨
    m.read (s.dst.toNat + k) = mapSample s.lut k (s.mem.read (s.src.toNat + k))

theorem abandonedMemory_unchanged (s : State) : AbandonedMemory s s.mem := ⟨fun _ _ => rfl, fun _ _ => Or.inl rfl⟩

theorem abandonedMemory_mapSomeBytes {s : State} (hwf : s.mem.wf = true) (hdst : (dstSpan s).pastTop = false)
    (draw : Nat) :
    AbandonedMemory s (mapSomeBytes s.lut (srcSpan s) (dstSpan s) s.mem draw (frameBytes s)) where
  outside := read_mapSomeBytes_other s.lut (srcSpan s) (dstSpan s) s.mem draw (frameBytes s)
  inside k hk := by
    have hread := read_mapSomeBytes s.lut (srcSpan s) (dstSpan s) hwf draw (frameBytes s) (pastTop_eq_false hdst) k hk
    split at hread
    · exact Or.inr hread
    · exact Or.inl hread

/-- Reset while an `XFORM` runs makes the reset state of the block, on memory partly transformed. -/
theorem abandonXform_eq_resetBlock {s : State} (hwf : s.mem.wf = true)
    (hbacked : firstError .xform s = 0 → portReply s.platform (commandSpans .xform s) ≠ .unbacked) :
    ∃ m n, abandonXform s = .next (resetBlock m { s with draws := n }) ∧ AbandonedMemory s m := by
  cases hworks : xformWorks s with
  | false => exact ⟨s.mem, s.draws, abandonXform_of_no_work hworks, abandonedMemory_unchanged s⟩
  | true =>
    exact ⟨_, _, abandonXform_of_backed hworks (hbacked (firstError_xform_of_works hworks)),
      abandonedMemory_mapSomeBytes hwf (xformWorks_dst hworks) s.draws⟩

/-- Reset while a command runs makes the reset state of the block; only an abandoned `XFORM` has changed memory. -/
theorem hostReset_of_running {s : State} {w : Word} {i : Instr} (hwf : s.mem.wf = true) (hw : s.running = some w)
    (hd : decode w = some i)
    (hbacked : i = .xform → firstError i s = 0 → portReply s.platform (commandSpans i s) ≠ .unbacked) :
    ∃ m n, hostReset s = .next (resetBlock m { s with draws := n }) ∧ (i ≠ .xform → m = s.mem) ∧
      AbandonedMemory s m := by
  by_cases hx : i = .xform
  · subst hx
    obtain ⟨m, n, hreset, hmem⟩ := abandonXform_eq_resetBlock hwf (hbacked rfl)
    exact ⟨m, n, (hostReset_of_xform hw hd).trans hreset, fun hne => absurd rfl hne, hmem⟩
  · have hother : ∀ w', s.running = some w' → decode w' ≠ some .xform := by simp [hw, hd, hx]
    exact ⟨s.mem, s.draws, hostReset_of_no_xform hother, fun _ => rfl, abandonedMemory_unchanged s⟩

@[simp] theorem status_resetBlock (m : Memory) (s : State) : status (resetBlock m s) = 0 := by
  simp [status, busy, validBits, statusWord]

@[simp] theorem errlogWord_resetBlock (m : Memory) (s : State) : errlogWord (resetBlock m s).errlog = 0 := by
  simp [errlogWord]

/-- Settles O2: memory and the count of free values aside, a reset answers one state, and the count only grows. -/
theorem resetLeavesTheOutside : Obligations.ResetLeavesTheOutside := by
  rintro s t ⟨hhead, hserved⟩ hstep
  obtain ⟨rest, hi⟩ := List.head?_eq_some_iff.mp hhead
  rw [step_reset hserved hi] at hstep
  rw [hi]
  rcases hostReset_cases hstep with rfl | ⟨-, rfl⟩
  · exact ⟨rfl, rfl, rfl, rfl, Nat.le_refl s.draws⟩
  · exact ⟨rfl, rfl, rfl, rfl, Nat.le_add_right s.draws _⟩

/-- Settles O35: the state is the reset state of the block whatever was running, and only an `XFORM` touches memory. -/
theorem resetAbandonsTheCommand : Obligations.ResetAbandonsTheCommand := by
  intro s w i rest hwf hw hd hi hbacked
  obtain ⟨m, n, hreset, hkept, hmem⟩ := hostReset_of_running (s := { s with inbox := rest }) hwf hw hd hbacked
  have hstep := (step_reset (Or.inl (by simp [hw])) hi).trans hreset
  exact ⟨_, hstep, status_resetBlock m _, errlogWord_resetBlock m _, rfl, rfl, rfl, rfl, rfl, rfl, rfl, rfl,
    toNat_entry_identityLut, hkept, hmem.outside, hmem.inside⟩

end Sys2Proof.Machine
end

section
/-! How a command goes on with frame memory (70_reset_and_hazards.md R190): it ends where memory answers, and hangs
where memory never does. -/

namespace Sys2Proof.Machine

theorem exec_hist_ends_idle {s : State} (hplain : OnPlainMemory .hist s) :
    ∃ t, exec .hist s = .next t ∧ t.running = none := by
  by_cases hpixels : pixelCount s = 0
  · exact ⟨_, exec_hist_of_empty hpixels, rfl⟩
  by_cases htop : (srcSpan s).pastTop = true
  · exact ⟨_, exec_hist_of_pastTop hpixels htop, rfl⟩
  · have hnone := (firstError_hist_eq_zero_iff s).mpr ⟨hpixels, Bool.eq_false_iff.mpr htop⟩
    exact ⟨_, exec_hist_of_plain hnone hplain, rfl⟩

theorem exec_xform_ends_idle {s : State} (hplain : OnPlainMemory .xform s) :
    ∃ t, exec .xform s = .next t ∧ t.running = none := by
  by_cases hpixels : pixelCount s = 0
  · exact ⟨_, exec_xform_of_empty hpixels, rfl⟩
  by_cases htop : (srcSpan s).pastTop = true ∨ (dstSpan s).pastTop = true
  · exact ⟨_, exec_xform_of_pastTop hpixels htop, rfl⟩
  obtain ⟨hsrc, hdst⟩ := not_or.mp htop
  rw [Bool.not_eq_true] at hsrc hdst
  cases hover : partialOverlap s with
  | true => exact ⟨_, exec_xform_of_overlap hpixels hsrc hdst hover, rfl⟩
  | false =>
    have hnone := (firstError_xform_eq_zero_iff hpixels).mpr ⟨hsrc, hdst, hover⟩
    exact ⟨_, exec_xform_of_plain hpixels hnone hplain, rfl⟩

/-- Settles O16: every branch of a command raises an error or finishes, and either makes the block idle. -/
theorem everyCommandTerminates : Obligations.EveryCommandTerminates := by
  intro i s hplain
  cases i with
  | hist => exact exec_hist_ends_idle hplain
  | cdf =>
    cases hh : s.hvalid with
    | false => exact ⟨_, exec_cdf_of_noHist hh, rfl⟩
    | true => exact ⟨_, exec_cdf_of_hist hh, rfl⟩
  | setref =>
    cases hc : s.cvalid with
    | false => exact ⟨_, exec_setref_of_noCdf hc, rfl⟩
    | true =>
      cases hr : s.rvalid with
      | false => exact ⟨_, exec_setref_of_free hc hr, rfl⟩
      | true => exact ⟨_, exec_setref_of_refLocked hc hr, rfl⟩
  | lutgen =>
    cases hc : s.cvalid with
    | false => exact ⟨_, exec_lutgen_of_noCdf hc, rfl⟩
    | true =>
      cases hr : s.rvalid with
      | false => exact ⟨_, exec_lutgen_of_noRef hc hr, rfl⟩
      | true => exact ⟨_, exec_lutgen_of_ready hc hr, rfl⟩
  | xform => exact exec_xform_ends_idle hplain

/-- On memory that never answers a command hangs. -/
theorem accessing_silent {i : Instr} {spans : List Span} {begun done : State}
    (h : portReply begun.platform spans = .silent) : accessing i spans begun done = .next (hang i begun) := by
  simp only [accessing, h]

theorem exec_hist_of_silent {s : State} (h : firstError .hist s = 0)
    (hsilent : portReply s.platform (commandSpans .hist s) = .silent) :
    exec .hist s = .next (hang .hist (clearFrameFlags s)) :=
  (exec_hist_of_firstError h).trans (accessing_silent hsilent)

theorem exec_xform_of_silent {s : State} (hpixels : pixelCount s ≠ 0) (h : firstError .xform s = 0)
    (hsilent : portReply s.platform (commandSpans .xform s) = .silent) : exec .xform s = .next (hang .xform s) :=
  (exec_xform_of_firstError hpixels h).trans (accessing_silent hsilent)

/-- Settles O19: a hang changes nothing that the checks or the access look at, so run again the command hangs again,
in the same state. -/
theorem silentMemoryHangs : Obligations.SilentMemoryHangs := by
  rintro i s (rfl | rfl) hpixels hnone hsilent
  · exact ⟨_, exec_hist_of_silent hnone hsilent, rfl, rfl,
      exec_hist_of_silent (s := hang .hist (clearFrameFlags s)) hnone hsilent⟩
  · exact ⟨_, exec_xform_of_silent hpixels hnone hsilent, rfl, rfl,
      exec_xform_of_silent (s := hang .xform s) hpixels hnone hsilent⟩

end Sys2Proof.Machine
end
